-- ==== Sys2Proof/Word.lean ====
section
/-! DEFINITION. The value domains of the codec (00_scope.md R7, R8): the byte, the exact rationals `Q` and the exact
value `XReal` of a field that holds a float32. Unsigned numbers of N bits are `BitVec N`, signed numbers are `Int`. -/

namespace Sys2Proof

/-- A byte, a value 0 to 255 (00_scope.md R7). -/
abbrev Byte := BitVec 8

/-- `Q`, all rationals, exact (00_scope.md R8). -/
abbrev Q := Rat

/-- The exact value of a decoded field that has a float32 part (00_scope.md R8, 40_numeric_codec.md R104, R105). -/
inductive XReal where
  | fin (q : Q)
  | posInf
  | negInf
  | nan
deriving DecidableEq, Repr

end Sys2Proof
end

