-- ==== Sys2Proof/Machine/Params.lean ====
section
/-! DEFINITION. The fixed parameters of the codec (00_scope.md R6) and the offset and width of every field of the
receive field table (30_encoding.md R62). Each value stands here once and the rest of the model reads it from here, so
that a corrected value changes one place (70_reset_and_hazards.md R271). -/

namespace Sys2Proof.Machine.Params

/-! ## Parameters (00_scope.md R6) -/

/-- Frame byte 0, the header marker (R6, 30_encoding.md R60). -/
@[simp] abbrev mark0 : Byte := 0xFF
/-- Frame byte 1, the trailer/sync marker (R6, 30_encoding.md R60). -/
@[simp] abbrev mark1 : Byte := 0xFE
/-- `RX_LEN`, the length of a receive frame (R6, 30_encoding.md R61). -/
@[simp] abbrev rxLen : Nat := 65
/-- `BUF_CAP`, the capacity of the receive buffer: one receive frame (R6, 10_state.md R21; decision D3). -/
@[simp] abbrev bufCap : Nat := rxLen
/-- `MAX_WP`, the greatest number of waypoints of a send frame (R6, 43_command_encoder.md R199). -/
@[simp] abbrev maxWp : Nat := 50
/-- The marker pair's length (30_encoding.md R60, R76). -/
@[simp] abbrev hdrLen : Nat := 2
/-- `TS_LEN` (R6, 30_encoding.md R77). -/
@[simp] abbrev tsLen : Nat := 8
/-- The bytes of one coordinate of a point, 1 + 4 (30_encoding.md R78). -/
@[simp] abbrev coordLen : Nat := 5
/-- `POINT_LEN`, a longitude and a latitude: 10 (R6, 30_encoding.md R78). -/
@[simp] abbrev pointLen : Nat := coordLen + coordLen
/-- `CTRL_LEN` (R6, 30_encoding.md R79). -/
@[simp] abbrev ctrlLen : Nat := 7
/-- `TAIL_LEN` (R6, 30_encoding.md R80). -/
@[simp] abbrev tailLen : Nat := 14
/-- `TX_MIN_LEN`, the length of a send frame with no waypoint: 2 + 8 + 10 + 7 + 14 = 41 (R6, 30_encoding.md R76). -/
@[simp] abbrev txMinLen : Nat := hdrLen + tsLen + pointLen + ctrlLen + tailLen
/-- `MOTOR_MIN` (R6, 40_numeric_codec.md R111). -/
@[simp] abbrev motorMin : Nat := 675
/-- `MOTOR_MAX` (R6, 40_numeric_codec.md R111). -/
@[simp] abbrev motorMax : Nat := 1353
/-- `MOTOR_NEUTRAL`; "no rule reads it" (R6). -/
@[simp] abbrev motorNeutral : Nat := 1013
/-- `LAT_MIN`, `LAT_MAX`, bounds included (R6, 43_command_encoder.md R196). -/
@[simp] abbrev latMin : Q := -90
@[simp] abbrev latMax : Q := 90
/-- `LON_MIN`, `LON_MAX`, bounds included (R6, 43_command_encoder.md R196). -/
@[simp] abbrev lonMin : Q := -180
@[simp] abbrev lonMax : Q := 180
/-- `K_CH2O`, the source's `0.001228` (R6, 42_telemetry_decoder.md R156). -/
@[simp] abbrev kCh2o : Q := 1228 / 1000000
/-- `K_TVOC`, the source's `0.00375` (R6, 42_telemetry_decoder.md R157). -/
@[simp] abbrev kTvoc : Q := 375 / 100000

/-! ## The receive field table (30_encoding.md R62) -/

/-- The place of a receive field: its offset from frame start and its width, for a field of two parts the widths of
both, as R62 writes them (`1+1`, `1+4`). -/
structure Field where
  off : Nat
  /-- the bytes of the whole field, or of its integer part -/
  width : Nat
  /-- the bytes of the fraction part, which stands behind the integer part -/
  frac : Nat := 0
deriving DecidableEq, Repr

/-- The offset of the fraction part. -/
@[simp] abbrev Field.fracOff (d : Field) : Nat := d.off + d.width

/-- The first offset behind the field. -/
@[simp] abbrev Field.stop (d : Field) : Nat := d.off + d.width + d.frac

@[simp] abbrev motor1 : Field := { off := 2, width := 2 }
@[simp] abbrev motor2 : Field := { off := 4, width := 2 }
@[simp] abbrev co2 : Field := { off := 6, width := 2 }
@[simp] abbrev ch2o : Field := { off := 8, width := 2 }
@[simp] abbrev tvoc : Field := { off := 10, width := 2 }
@[simp] abbrev pm25 : Field := { off := 12, width := 2 }
@[simp] abbrev pm10 : Field := { off := 14, width := 2 }
@[simp] abbrev airTemp : Field := { off := 16, width := 1, frac := 1 }
@[simp] abbrev airHum : Field := { off := 18, width := 1, frac := 1 }
@[simp] abbrev turbidity : Field := { off := 20, width := 2 }
@[simp] abbrev ph : Field := { off := 22, width := 2 }
@[simp] abbrev tds : Field := { off := 24, width := 2 }
@[simp] abbrev waterTemp : Field := { off := 26, width := 1, frac := 1 }
@[simp] abbrev waterLevel : Field := { off := 28, width := 2 }
@[simp] abbrev latitude : Field := { off := 32, width := 1, frac := 4 }
@[simp] abbrev longitude : Field := { off := 37, width := 1, frac := 4 }
@[simp] abbrev heading : Field := { off := 42, width := 1, frac := 1 }
@[simp] abbrev speed : Field := { off := 44, width := 1, frac := 1 }
@[simp] abbrev battery : Field := { off := 46, width := 2 }
@[simp] abbrev mode : Field := { off := 48, width := 1 }

/-- The twenty rows of R62 in its order. -/
def rxFields : List Field :=
  [motor1, motor2, co2, ch2o, tvoc, pm25, pm10, airTemp, airHum, turbidity] ++
  [ph, tds, waterTemp, waterLevel, latitude, longitude, heading, speed, battery, mode]

/-! ## Offsets of the send segments for `n` accepted waypoints (30_encoding.md R81)

Each is the end of the segment before it. -/

@[simp] abbrev offHeader : Nat := 0
/-- 2 -/
@[simp] abbrev offTimestamp : Nat := offHeader + hdrLen
/-- 10 -/
@[simp] abbrev offHome : Nat := offTimestamp + tsLen
/-- Base of the `j`-th accepted waypoint, `j = 1 .. N`: `10 + 10 j` (43_command_encoder.md R198). -/
@[simp] abbrev offWaypoint (j : Nat) : Nat := offHome + pointLen * j
/-- `20 + 10 n` -/
@[simp] abbrev offCtrl (n : Nat) : Nat := offHome + pointLen + pointLen * n
/-- `27 + 10 n` -/
@[simp] abbrev offTail (n : Nat) : Nat := offCtrl n + ctrlLen
/-- `L(N) = 41 + 10 N` (30_encoding.md R76). -/
@[simp] abbrev txLen (n : Nat) : Nat := txMinLen + pointLen * n
/-- `TX_MAX_LEN`, the length of a send frame with 50 waypoints: 541 (R6, 30_encoding.md R76). -/
@[simp] abbrev txMaxLen : Nat := txLen maxWp

end Sys2Proof.Machine.Params
end

