-- ==== Sys2Proof/Syntax.lean ====
section
/-! DEFINITION. The operations of the codec, one constructor per row of spec/opcode_table.json (30_encoding.md R85),
with the input records of ENCODE (10_state.md R30). -/

namespace Sys2Proof

/-- `PointIn`: a parsed point. `valid = false` stands for every way the text could be unusable, and then `lat` and
`lon` are not read (10_state.md R30, 43_command_encoder.md R191). -/
structure PointIn where
  valid : Bool
  lat : Q
  lon : Q
deriving DecidableEq, Repr

/-- `TsIn`: a parsed timestamp; `secs` is an `s64`, its two's complement pattern. When `valid = false`, `secs` is not
read (10_state.md R30). -/
structure TsIn where
  valid : Bool
  secs : BitVec 64
deriving DecidableEq, Repr

/-- The boat modes a send frame can carry (30_encoding.md R79). -/
inductive BoatMode where
  | manual
  | auto
  | positionHold
deriving DecidableEq, Repr

/-- The inputs of ENCODE on port `enc_cmd` (10_state.md R30). The mode port is two bits wide and can carry 3, which is
no mode (43_command_encoder.md R194). -/
structure EncCmd where
  home : PointIn
  ts : TsIn
  wps : List PointIn
  pumpAuto : Bool
  pumpActive : Bool
  mode : BitVec 2
  motor1 : BitVec 16
  motor2 : BitVec 16
deriving DecidableEq, Repr

/-- Why bytes at the model's input queue are no operation (log 1). -/
inductive Reject where
  /-- the queue ends inside an operation -/
  | truncated
  /-- the selector byte names no row of the table -/
  | noSuchOperation
  /-- a number is not written in its shortest form -/
  | badNumber
  /-- a sign, flag or mode byte holds a value it does not have -/
  | badChoice
  /-- a rational is not in lowest terms -/
  | badRational
deriving DecidableEq, Repr

/-- The operations (30_encoding.md R85). -/
inductive Instr where
  -- ByteStreamFramer, ports and micro-steps (41_framer.md)
  | rst
  | feedb (b : Byte)
  | feed (bytes : List Byte)
  | fIdle
  | fDrop
  | fWait
  | fEmit
  -- TelemetryDecoder (42_telemetry_decoder.md); `f` is the frame
  | decode (f : List Byte)
  | xM1 (f : List Byte)
  | xM2 (f : List Byte)
  | xCo2 (f : List Byte)
  | xCh2o (f : List Byte)
  | xTvoc (f : List Byte)
  | xPm25 (f : List Byte)
  | xPm10 (f : List Byte)
  | xAirT (f : List Byte)
  | xAirH (f : List Byte)
  | xTurb (f : List Byte)
  | xPh (f : List Byte)
  | xTds (f : List Byte)
  | xWatT (f : List Byte)
  | xWlvl (f : List Byte)
  | xLat (f : List Byte)
  | xLon (f : List Byte)
  | xHdg (f : List Byte)
  | xSpd (f : List Byte)
  | xBat (f : List Byte)
  | xMode (f : List Byte)
  -- CommandEncoder (43_command_encoder.md); `t` is the frame under construction
  | encode (cmd : EncCmd)
  | eHdr (t : List Byte)
  | eTs (t : List Byte) (secs : BitVec 64)
  | ePoint (t : List Byte) (p : Nat) (lat lon : Q)
  | eCtrl (t : List Byte) (c : Nat) (pumpAuto pumpActive : Bool) (mode : BoatMode) (motor1 motor2 : BitVec 16)
  | eTail (t : List Byte) (o : Nat)
  -- NumericCodec (40_numeric_codec.md)
  | u8Unpack (b0 : Byte)
  | u8Pack (v : Int)
  | u16Unpack (b0 b1 : Byte)
  | u16Pack (v : Int)
  | i16Unpack (b0 b1 : Byte)
  | i64Pack (v : Int)
  | hlUnpack (h l : Byte)
  | hlPack (v : Q)
  | f32Unpack (b0 b1 b2 b3 : Byte)
  | f32Pack (q : Q)
  | sfUnpack (i b0 b1 b2 b3 : Byte)
  | sfPack (v : Q)
  | sbUnpack (i f : Byte)
  | ubUnpack (i f : Byte)
  | bool8Pack (v : Bool)
  | clampMotor (v : Int)
deriving DecidableEq, Repr

end Sys2Proof
end

