-- ==== Sys2Proof/Machine/Operands.lean ====
section
/-! DEFINITION. Byte arrays (00_scope.md R9) and the NumericCodec's conversions (40_numeric_codec.md), each a pure
function, with the stated domain of those that have one (R97). -/

namespace Sys2Proof.Machine

/-! ## Byte arrays -/

/-- `MemRead(a[off], n)` (00_scope.md R9). -/
def memRead (a : List Byte) (off n : Nat) : List Byte := (a.drop off).take n

/-- Byte `off` of an array; every rule reads inside the array it names, so the default is never met (20_memory.md R48). -/
def byteAt (a : List Byte) (off : Nat) : Byte := a.getD off 0

/-- What `MemWrite(a[off], n, s)` requires: `off + n <= len(a)` (00_scope.md R9). -/
def fits (a : List Byte) (off n : Nat) : Bool := off + n ≤ a.length

/-- `MemWrite(a[off], len(s), s)` (00_scope.md R9). -/
def memWrite (a : List Byte) (off : Nat) (s : List Byte) : List Byte :=
  a.take off ++ s ++ a.drop (off + s.length)

/-! ## Numbers -/

/-- `trunc0(q)`: the integer part, rounding toward zero (00_scope.md R8). -/
def trunc0 (q : Q) : Int := q.num.tdiv q.den

/-- `2^k` as an exact rational. -/
def pow2 : Int → Q
  | .ofNat n => ((2 ^ n : Nat) : Q)
  | .negSucc n => 1 / ((2 ^ (n + 1) : Nat) : Q)

/-- The integer `E` with `2^E <= a < 2^(E+1)`, for `a > 0` (40_numeric_codec.md R103). -/
def floorLog2 (a : Q) : Int :=
  let e : Int := (Nat.log2 a.num.natAbs : Int) - (Nat.log2 a.den : Int)
  if pow2 e ≤ a then e else e - 1

/-- The nearest integer, a tie going to the even integer (40_numeric_codec.md R103). -/
def roundHalfEven (q : Q) : Int :=
  let n := q.floor
  let d := q - (n : Q)
  if d < 1 / 2 then n
  else if 1 / 2 < d then n + 1
  else if n % 2 = 0 then n else n + 1

/-! ## Single bytes -/

/-- `U8.UNPACK` (R90). -/
def u8Unpack (b0 : Byte) : BitVec 8 := b0

/-- The domain of `U8.PACK`, 0..255 (R91, 93_implementation_defined.md U9). -/
def u8Domain (v : Int) : Bool := 0 ≤ v ∧ v ≤ 255

/-- `U8.PACK` (R91). -/
def u8Pack (v : Int) : List Byte := [BitVec.ofInt 8 v]

/-- `BOOL8.PACK` (R110). -/
def bool8Pack (v : Bool) : List Byte := if v then [0x01] else [0x00]

/-! ## Little-endian integers -/

/-- `U16LE.UNPACK`: `b0 + 256 b1` (R92). -/
def u16Unpack (b0 b1 : Byte) : BitVec 16 := BitVec.ofNat 16 (b0.toNat + 256 * b1.toNat)

/-- The domain of `U16LE.PACK`, 0..65535 (R93, U9). -/
def u16Domain (v : Int) : Bool := 0 ≤ v ∧ v ≤ 65535

/-- `U16LE.PACK`: `[v mod 256, floor(v / 256)]` (R93). -/
def u16Pack (v : Int) : List Byte := [BitVec.ofInt 8 v, BitVec.ofInt 8 (v / 256)]

/-- `I16LE.UNPACK`: `sext_16(b0 + 256 b1)` (R94). -/
def i16Unpack (b0 b1 : Byte) : Int := (u16Unpack b0 b1).toInt

/-- The domain of `I64LE.PACK`, `-2^63 .. 2^63 - 1` (R96, U9). -/
def i64Domain (v : Int) : Bool := -(2 ^ 63) ≤ v ∧ v ≤ 2 ^ 63 - 1

/-- The eight bytes of a 64-bit pattern, least significant first (R96). -/
def bytes64 (w : BitVec 64) : List Byte :=
  [w.extractLsb' 0 8, w.extractLsb' 8 8, w.extractLsb' 16 8, w.extractLsb' 24 8,
   w.extractLsb' 32 8, w.extractLsb' 40 8, w.extractLsb' 48 8, w.extractLsb' 56 8]

/-- `I64LE.PACK`: the bytes of `wrap_64(v)` (R96). -/
def i64Pack (v : Int) : List Byte := bytes64 (BitVec.ofInt 64 v)

/-! ## The high/low fixed-point scheme -/

/-- `HL.UNPACK`: `h + l/100`, both unsigned (R100). -/
def hlUnpack (h l : Byte) : Q := (h.toNat : Q) + (l.toNat : Q) / 100

/-- The domain of `HL.PACK`: `0 <= v <= 255.99` and `100 v` an integer (R101, U9). -/
def hlDomain (v : Q) : Bool := 0 ≤ v ∧ v ≤ 25599 / 100 ∧ (100 * v).den = 1

/-- `HL.PACK`: `[floor(v), 100 (v - floor(v))]` (R101). -/
def hlPack (v : Q) : List Byte :=
  let h := v.floor
  [BitVec.ofInt 8 h, BitVec.ofInt 8 (100 * (v - (h : Q))).floor]

/-! ## IEEE-754 binary32 -/

/-- The pattern `b0 + 256 b1 + 65536 b2 + 16777216 b3` (R104; 20_memory.md R41 for the order). -/
def f32Pattern (b0 b1 b2 b3 : Byte) : BitVec 32 :=
  BitVec.ofNat 32 (b0.toNat + 256 * b1.toNat + 65536 * b2.toNat + 16777216 * b3.toNat)

/-- The sign `(-1)^s`. -/
def signOf (s : Bool) : Q := if s then -1 else 1

/-- The value of a binary32 pattern (R104). -/
def f32Value (w : BitVec 32) : XReal :=
  let s := w.getLsbD 31
  let e := (w.extractLsb' 23 8).toNat
  let m := (w.extractLsb' 0 23).toNat
  if e = 255 then
    if m ≠ 0 then .nan else if s then .negInf else .posInf
  else if e = 0 then .fin (signOf s * (m : Q) * pow2 (-149))
  else .fin (signOf s * ((2 ^ 23 + m : Nat) : Q) * pow2 ((e : Int) - 150))

/-- `F32LE.UNPACK` (R104). -/
def f32Unpack (b0 b1 b2 b3 : Byte) : XReal := f32Value (f32Pattern b0 b1 b2 b3)

/-- The domain of `F32LE.PACK`: `|q| < 2^128 - 2^103` (R103, U9). -/
def f32Domain (q : Q) : Bool := |q| < pow2 128 - pow2 103

/-- The exponent of R103: `floorLog2`, not below -126. -/
def f32Exponent (a : Q) : Int := max (floorLog2 a) (-126)

/-- The pattern of the binary32 of sign `s` and magnitude `n * 2^(e - 23)`, `0 <= n <= 2^24`, with the two
adjustments of R103: a significand that rounded up to `2^24`, and a subnormal or zero. -/
def f32Compose (s : Bool) (n : Nat) (e : Int) : BitVec 32 :=
  let sign := if s then 2 ^ 31 else 0
  if n = 2 ^ 24 then BitVec.ofNat 32 (sign + (e + 128).toNat * 2 ^ 23)
  else if n < 2 ^ 23 then BitVec.ofNat 32 (sign + n)
  else BitVec.ofNat 32 (sign + (e + 127).toNat * 2 ^ 23 + (n - 2 ^ 23))

/-- The binary32 nearest to `q`, ties to even (R103). -/
def f32Round (q : Q) : BitVec 32 :=
  if q = 0 then 0
  else
    let e := f32Exponent |q|
    f32Compose (decide (q < 0)) (roundHalfEven (|q| / pow2 (e - 23))).toNat e

/-- The four bytes of a 32-bit pattern, least significant first (R103). -/
def bytes32 (w : BitVec 32) : List Byte :=
  [w.extractLsb' 0 8, w.extractLsb' 8 8, w.extractLsb' 16 8, w.extractLsb' 24 8]

/-- `F32LE.PACK` (R103). -/
def f32Pack (q : Q) : List Byte := bytes32 (f32Round q)

/-! ## Coordinates, heading, speed -/

/-- `I + F` in `XReal` (R106). -/
def addInt (i : Int) : XReal → XReal
  | .fin f => .fin ((i : Q) + f)
  | .posInf => .posInf
  | .negInf => .negInf
  | .nan => .nan

/-- `SF.UNPACK`: the signed byte plus the float32, no sign handling (R106). -/
def sfUnpack (i b0 b1 b2 b3 : Byte) : XReal := addInt i.toInt (f32Unpack b0 b1 b2 b3)

/-- `SF.PACK`: the low 8 bits of `trunc0(v)`, then the float32 of the rest (R107). -/
def sfPack (v : Q) : List Byte :=
  let i := trunc0 v
  BitVec.ofInt 8 i :: f32Pack (v - (i : Q))

/-- `SB.UNPACK`: the sign of the integer part is applied to the fraction, 0 counts as positive (R108). -/
def sbUnpack (i f : Byte) : Q :=
  let r := (f.toNat : Q) / 100
  if i.toInt < 0 then (i.toInt : Q) - r else (i.toInt : Q) + r

/-- `UB.UNPACK`: `i + f/100`, both unsigned (R109). -/
def ubUnpack (i f : Byte) : Q := (i.toNat : Q) + (f.toNat : Q) / 100

/-! ## Motor clamp -/

/-- The domain of `CLAMP.MOTOR`, a `u16` (R111, R97). -/
def clampDomain (v : Int) : Bool := 0 ≤ v ∧ v ≤ 65535

/-- `CLAMP.MOTOR` (R111). -/
def clampMotor (v : Int) : Int :=
  if v < Params.motorMin then Params.motorMin
  else if v > Params.motorMax then Params.motorMax
  else v

end Sys2Proof.Machine
end

