-- ==== Sys2Proof/Machine/State.lean ====
section
/-! DEFINITION. The records the codec delivers (10_state.md R29, R31), its state (10_state.md R21 to R26), and the
reasons an operation can stop. -/

namespace Sys2Proof.Machine

/-! ## Output records -/

/-- SensorReading (10_state.md R29). `u16` fields are 16 bits wide; scaled fields are exact. -/
structure SensorReading where
  co2 : BitVec 16
  ch2oRaw : BitVec 16
  ch2o : Q
  tvocRaw : BitVec 16
  tvoc : Q
  pm25 : BitVec 16
  pm10 : BitVec 16
  airTempHi : Byte
  airTempLo : Byte
  airTemp : Q
  airHumHi : Byte
  airHumLo : Byte
  airHum : Q
  turbidity : BitVec 16
  phRaw : BitVec 16
  ph : Q
  tds : BitVec 16
  waterTempHi : Byte
  waterTempLo : Byte
  waterTemp : Q
  waterLevelRaw : Int
  waterLevel : Q
deriving DecidableEq, Repr

/-- VesselState (10_state.md R29). -/
structure VesselState where
  latInt : Int
  latFrac : BitVec 32
  latitude : XReal
  lonInt : Int
  lonFrac : BitVec 32
  longitude : XReal
  hdgInt : Int
  hdgFrac : Byte
  heading : Q
  spdInt : BitVec 8
  spdFrac : Byte
  speed : Q
deriving DecidableEq, Repr

/-- DeviceStatus (10_state.md R29). -/
structure DeviceStatus where
  motor1 : BitVec 16
  motor2 : BitVec 16
  battery : BitVec 16
  mode : Byte
deriving DecidableEq, Repr

/-- The triple on port `readings_out` (10_state.md R27, R29). -/
structure Readings where
  sensor : SensorReading
  vessel : VesselState
  device : DeviceStatus
deriving DecidableEq, Repr

/-- The error kinds of ENCODE (60_exceptions.md R230). -/
inductive EncErr where
  | homeInvalid
  | timestampInvalid
  | badMode
deriving DecidableEq, Repr

/-- EncodeResult (10_state.md R31). `rejected` lists the 1-based positions of the set in rising order (log 20). -/
inductive EncodeResult where
  | ok (bytes : List Byte) (n : Nat) (rejected : List Nat) (truncated : Nat)
  | err (kind : EncErr)
deriving DecidableEq, Repr

/-- The result of an operation that has no port of its own: a field extraction, a segment writer or a NumericCodec
primitive (log 7). -/
inductive Value where
  | u8 (v : BitVec 8)
  | u16 (v : BitVec 16)
  | int (v : Int)
  | q (v : Q)
  | xreal (v : XReal)
  | bytes (bs : List Byte)
  /-- a `u16` and its scaled value (X.CH2O, X.TVOC, X.PH) -/
  | rawU16 (raw : BitVec 16) (v : Q)
  /-- an `s16` and its scaled value (X.WLVL) -/
  | rawInt (raw : Int) (v : Q)
  /-- two bytes and their value (X.AIRT, X.AIRH, X.WATT, X.SPD) -/
  | pair (hi lo : Byte) (v : Q)
  /-- an `s8`, a float32 pattern and their sum (X.LAT, X.LON) -/
  | coord (i : Int) (frac : BitVec 32) (v : XReal)
  /-- an `s8`, a byte and their value (X.HDG) -/
  | signedPair (i : Int) (frac : Byte) (v : Q)
deriving DecidableEq, Repr

/-! ## State -/

/-- The state of the codec and what it has delivered on its ports. -/
structure State where
  /-- `BUF[0] .. BUF[LEN-1]`, oldest first (10_state.md R21) -/
  buf : List Byte
  /-- an RST has happened since power-up (70_reset_and_hazards.md R251; log 4) -/
  rstDone : Bool
  /-- the input `link_open`, which no rule reads (10_state.md R26; log 6) -/
  linkOpen : Bool
  /-- the frames delivered on `frame_out`, oldest first (10_state.md R27; log 5) -/
  frameOut : List (List Byte)
  /-- the triples delivered on `readings_out`, oldest first (10_state.md R27; log 5) -/
  readingsOut : List Readings
  /-- the results delivered on `enc_result`, oldest first (10_state.md R27; log 5) -/
  encResult : List EncodeResult
  /-- the model's own: results of operations without a port, oldest first (log 7) -/
  valueOut : List Value
  /-- the model's own: the bytes of the transactions issued and not yet performed (log 2) -/
  input : List Byte
deriving DecidableEq, Repr

/-- The state right after reset: the buffer empty (10_state.md R35); the other fields by log 2, 4, 5, 6, 7. -/
def State.reset : State where
  buf := []
  rstDone := true
  linkOpen := false
  frameOut := []
  readingsOut := []
  encResult := []
  valueOut := []
  input := []

/-- No operation of the codec stops it with a fault: the only errors are results of ENCODE (60_exceptions.md R230,
R231), and "Nothing in the block is `stuck`" (93_implementation_defined.md). The type is empty. -/
inductive Fault : Type
deriving DecidableEq, Repr

/-- Why an operation is refused. Every refusal is safe: it proves nothing about what hardware does there. -/
inductive Refusal where
  /-- Raised by `exec` for an operation without a meaning; no arm raises it in this model. Safe. -/
  | notModelled (mnemonic : String)
  /-- Raised by FEEDB, FEED and the micro-steps before the first RST (70_reset_and_hazards.md R251,
  93_implementation_defined.md U1). Safe. -/
  | rxBeforeReset
  /-- Raised by DECODE and the field extractions when the operand is not 65 bytes (42_telemetry_decoder.md R151,
  93_implementation_defined.md U6). Safe. -/
  | frameLength
  /-- Raised by a NumericCodec primitive outside its stated domain (40_numeric_codec.md R97,
  93_implementation_defined.md U9). Safe. -/
  | outsideDomain
  /-- Raised by a segment writer whose write does not fit the frame it is given (00_scope.md R9, `MemWrite` "Requires
  off + n <= len(a)"). Safe. -/
  | outsideFrame
  /-- Raised by a micro-step that the buffer does not select (41_framer.md R123). Safe. -/
  | notSelected
  /-- Raised by `step` when the bytes at the input are no operation (log 1). Safe. -/
  | badTransaction (r : Reject)
deriving DecidableEq, Repr

end Sys2Proof.Machine
end

