-- ==== Sys2Proof/Machine/Assembly.lean ====
section
/-! DEFINITION. The checks, the selection of waypoints, the segment writers and ENCODE as pure functions
(43_command_encoder.md R190 to R206). -/

namespace Sys2Proof.Machine

/-! ## Checks -/

/-- `in_range(p)`, all four bounds included, compared exactly (R196). -/
def inRange (lat lon : Q) : Bool :=
  Params.latMin ≤ lat ∧ lat ≤ Params.latMax ∧ Params.lonMin ≤ lon ∧ lon ≤ Params.lonMax

/-- `p.valid and in_range(p)`: what the home point must satisfy (R192) and what accepts a waypoint (R197). -/
def usable (p : PointIn) : Bool := p.valid && inRange p.lat p.lon

/-- The first failing check, in the order HomeInvalid, TimestampInvalid, BadMode (R195, 60_exceptions.md R233). -/
def firstError (c : EncCmd) : Option EncErr :=
  if !usable c.home then some .homeInvalid
  else if !c.ts.valid then some .timestampInvalid
  else if c.mode = 3 then some .badMode
  else none

/-- The numeric code of an error kind (60_exceptions.md R230). -/
def EncErr.code : EncErr → Nat
  | .homeInvalid => 1
  | .timestampInvalid => 2
  | .badMode => 3

/-- The code of a result, 0 for `Ok` (60_exceptions.md R230). -/
def EncodeResult.code : EncodeResult → Nat
  | .ok _ _ _ _ => 0
  | .err k => k.code

/-! ## Selection of waypoints (R197, R198, R199) -/

/-- The accepted waypoints and the positions of the rejected ones, positions counted from `k`. -/
def selectFrom : Nat → List PointIn → List PointIn × List Nat
  | _, [] => ([], [])
  | k, w :: ws =>
    let r := selectFrom (k + 1) ws
    if usable w then (w :: r.1, r.2) else (r.1, k :: r.2)

/-- Only the first 50 entries are examined, whether accepted or rejected (R199). -/
def select (wps : List PointIn) : List PointIn × List Nat := selectFrom 1 (wps.take Params.maxWp)

/-! ## Segment writers (R200 to R204) -/

/-- `E.HDR(T)` (R200). -/
def writeHdr (t : List Byte) : List Byte :=
  memWrite (memWrite t Params.offHeader (u8Pack Params.mark0.toNat)) (Params.offHeader + 1) (u8Pack Params.mark1.toNat)

/-- `E.TS(T, secs)` (R201). -/
def writeTs (t : List Byte) (secs : BitVec 64) : List Byte := memWrite t Params.offTimestamp (i64Pack secs.toInt)

/-- `E.POINT(T, p, pt)`: longitude first, latitude 5 bytes later (R202). -/
def writePoint (t : List Byte) (p : Nat) (lat lon : Q) : List Byte :=
  memWrite (memWrite t p (sfPack lon)) (p + Params.coordLen) (sfPack lat)

/-- `E.POINT` of the accepted waypoints, the first of the list being the `j`-th (R190). -/
def writePoints (t : List Byte) : Nat → List PointIn → List Byte
  | _, [] => t
  | j, w :: ws => writePoints (writePoint t (Params.offWaypoint j) w.lat w.lon) (j + 1) ws

/-- The byte of a boat mode (30_encoding.md R79). -/
def modeCode : BoatMode → Int
  | .manual => 0
  | .auto => 1
  | .positionHold => 2

/-- `E.CTRL(T, c, …)`: pump-auto before pump-active, motors clamped (R203, R206). -/
def writeCtrl (t : List Byte) (c : Nat) (pumpAuto pumpActive : Bool) (mode : Int) (motor1 motor2 : BitVec 16) :
    List Byte :=
  let t := memWrite t c (bool8Pack pumpAuto)
  let t := memWrite t (c + 1) (bool8Pack pumpActive)
  let t := memWrite t (c + 2) (u8Pack mode)
  let t := memWrite t (c + 3) (u16Pack (clampMotor motor1.toNat))
  memWrite t (c + 5) (u16Pack (clampMotor motor2.toNat))

/-- `E.TAIL(T, t)`: 14 zero bytes (R204). -/
def writeTail (t : List Byte) (o : Nat) : List Byte := memWrite t o (List.replicate Params.tailLen 0)

/-! ## ENCODE -/

/-- The assembly of R190 over a frame `t` of the final length, for the accepted waypoints `acc`. -/
def assemble (t : List Byte) (c : EncCmd) (acc : List PointIn) : List Byte :=
  let n := acc.length
  let t := writeHdr t
  let t := writeTs t c.ts.secs
  let t := writePoint t Params.offHome c.home.lat c.home.lon
  let t := writePoints t 1 acc
  let t := writeCtrl t (Params.offCtrl n) c.pumpAuto c.pumpActive c.mode.toNat c.motor1 c.motor2
  writeTail t (Params.offTail n)

/-- The frame as created, of length `41 + 10 N`; its content is irrelevant, every byte is written (R205, R207). -/
def freshFrame (n : Nat) : List Byte := List.replicate (Params.txLen n) 0

/-- `Ok` of R190. -/
def encodeOk (c : EncCmd) : EncodeResult :=
  let sel := select c.wps
  .ok (assemble (freshFrame sel.1.length) c sel.1) sel.1.length sel.2 (c.wps.length - Params.maxWp)

end Sys2Proof.Machine
end

