-- ==== Sys2Proof/Machine/Fields.lean ====
section
/-! DEFINITION. The twenty field extractions and DECODE as pure functions of a 65-byte frame
(42_telemetry_decoder.md R150 to R173). -/

namespace Sys2Proof.Machine

/-! ## The bytes of a field (30_encoding.md R62, R65) -/

/-- Byte `k` of a field, or of its integer part. -/
def intByte (f : List Byte) (d : Params.Field) (k : Nat) : Byte := byteAt (memRead f d.off d.width) k

/-- Byte `k` of a field's fraction part. -/
def fracByte (f : List Byte) (d : Params.Field) (k : Nat) : Byte := byteAt (memRead f d.fracOff d.frac) k

/-! ## Field classes (30_encoding.md R65) -/

def u8At (f : List Byte) (d : Params.Field) : Byte := u8Unpack (intByte f d 0)

def u16At (f : List Byte) (d : Params.Field) : BitVec 16 := u16Unpack (intByte f d 0) (intByte f d 1)

def i16At (f : List Byte) (d : Params.Field) : Int := i16Unpack (intByte f d 0) (intByte f d 1)

def hlAt (f : List Byte) (d : Params.Field) : Byte × Byte × Q :=
  (intByte f d 0, fracByte f d 0, hlUnpack (intByte f d 0) (fracByte f d 0))

def sfAt (f : List Byte) (d : Params.Field) : Int × BitVec 32 × XReal :=
  ((intByte f d 0).toInt,
   f32Pattern (fracByte f d 0) (fracByte f d 1) (fracByte f d 2) (fracByte f d 3),
   sfUnpack (intByte f d 0) (fracByte f d 0) (fracByte f d 1) (fracByte f d 2) (fracByte f d 3))

def sbAt (f : List Byte) (d : Params.Field) : Int × Byte × Q :=
  ((intByte f d 0).toInt, fracByte f d 0, sbUnpack (intByte f d 0) (fracByte f d 0))

def ubAt (f : List Byte) (d : Params.Field) : BitVec 8 × Byte × Q :=
  (intByte f d 0, fracByte f d 0, ubUnpack (intByte f d 0) (fracByte f d 0))

/-! ## The extractions -/

/-- R153 -/
def xM1 (f : List Byte) : BitVec 16 := u16At f Params.motor1
/-- R154 -/
def xM2 (f : List Byte) : BitVec 16 := u16At f Params.motor2
/-- R155 -/
def xCo2 (f : List Byte) : BitVec 16 := u16At f Params.co2
/-- R156: the raw count of ppb and the exact mg/m3. -/
def xCh2o (f : List Byte) : BitVec 16 × Q :=
  (u16At f Params.ch2o, ((u16At f Params.ch2o).toNat : Q) * Params.kCh2o)
/-- R157: the raw count of ppb and the exact mg/m3. -/
def xTvoc (f : List Byte) : BitVec 16 × Q :=
  (u16At f Params.tvoc, ((u16At f Params.tvoc).toNat : Q) * Params.kTvoc)
/-- R158 -/
def xPm25 (f : List Byte) : BitVec 16 := u16At f Params.pm25
/-- R159 -/
def xPm10 (f : List Byte) : BitVec 16 := u16At f Params.pm10
/-- R160 -/
def xAirT (f : List Byte) : Byte × Byte × Q := hlAt f Params.airTemp
/-- R161 -/
def xAirH (f : List Byte) : Byte × Byte × Q := hlAt f Params.airHum
/-- R162 -/
def xTurb (f : List Byte) : BitVec 16 := u16At f Params.turbidity
/-- R163: the raw count and the actual pH, raw / 100. -/
def xPh (f : List Byte) : BitVec 16 × Q := (u16At f Params.ph, ((u16At f Params.ph).toNat : Q) / 100)
/-- R164 -/
def xTds (f : List Byte) : BitVec 16 := u16At f Params.tds
/-- R165 -/
def xWatT (f : List Byte) : Byte × Byte × Q := hlAt f Params.waterTemp
/-- R166: signed millimetres and metres. -/
def xWlvl (f : List Byte) : Int × Q := (i16At f Params.waterLevel, (i16At f Params.waterLevel : Q) / 1000)
/-- R167 -/
def xLat (f : List Byte) : Int × BitVec 32 × XReal := sfAt f Params.latitude
/-- R168 -/
def xLon (f : List Byte) : Int × BitVec 32 × XReal := sfAt f Params.longitude
/-- R169 -/
def xHdg (f : List Byte) : Int × Byte × Q := sbAt f Params.heading
/-- R170 -/
def xSpd (f : List Byte) : BitVec 8 × Byte × Q := ubAt f Params.speed
/-- R171 -/
def xBat (f : List Byte) : BitVec 16 := u16At f Params.battery
/-- R172: the raw byte, no value rejected. -/
def xMode (f : List Byte) : Byte := u8At f Params.mode

/-! ## DECODE -/

def sensorOf (f : List Byte) : SensorReading where
  co2 := xCo2 f
  ch2oRaw := (xCh2o f).1
  ch2o := (xCh2o f).2
  tvocRaw := (xTvoc f).1
  tvoc := (xTvoc f).2
  pm25 := xPm25 f
  pm10 := xPm10 f
  airTempHi := (xAirT f).1
  airTempLo := (xAirT f).2.1
  airTemp := (xAirT f).2.2
  airHumHi := (xAirH f).1
  airHumLo := (xAirH f).2.1
  airHum := (xAirH f).2.2
  turbidity := xTurb f
  phRaw := (xPh f).1
  ph := (xPh f).2
  tds := xTds f
  waterTempHi := (xWatT f).1
  waterTempLo := (xWatT f).2.1
  waterTemp := (xWatT f).2.2
  waterLevelRaw := (xWlvl f).1
  waterLevel := (xWlvl f).2

def vesselOf (f : List Byte) : VesselState where
  latInt := (xLat f).1
  latFrac := (xLat f).2.1
  latitude := (xLat f).2.2
  lonInt := (xLon f).1
  lonFrac := (xLon f).2.1
  longitude := (xLon f).2.2
  hdgInt := (xHdg f).1
  hdgFrac := (xHdg f).2.1
  heading := (xHdg f).2.2
  spdInt := (xSpd f).1
  spdFrac := (xSpd f).2.1
  speed := (xSpd f).2.2

def deviceOf (f : List Byte) : DeviceStatus where
  motor1 := xM1 f
  motor2 := xM2 f
  battery := xBat f
  mode := xMode f

/-- `DECODE f` (R150): no validation, no clamping, bytes 0 and 1 not read (R151, R173). -/
def decodeFrame (f : List Byte) : Readings where
  sensor := sensorOf f
  vessel := vesselOf f
  device := deviceOf f

end Sys2Proof.Machine
end

