-- ==== Sys2Proof/Machine/Flags.lean ====
section
/-! DEFINITION. The codec has no flags and no condition codes (10_state.md R25). What stands in their place is the
phase of the receive buffer, a pure function of its content (10_state.md R24), with the framer's test of the first two
bytes (30_encoding.md R67). -/

namespace Sys2Proof.Machine

/-- The framer's phases (10_state.md R24, 41_framer.md R122). -/
inductive Phase where
  | idle
  | hunt
  | wait
  | ready
deriving DecidableEq, Repr

/-- `head16 = B[0] x 256 + B[1]` (30_encoding.md R67). -/
def head16 (b0 b1 : Byte) : BitVec 16 := b0 ++ b1

/-- `match = 0xFFFE` under `mask = 0xFFFF`: the marker pair is at the front (30_encoding.md R67). -/
def isMarker (b0 b1 : Byte) : Bool :=
  (head16 b0 b1 &&& 0xFFFF) == (Params.mark0 ++ Params.mark1 : BitVec 16)

/-- `phase(B)`; the tests are made in the order of 41_framer.md R130 (10_state.md R24). -/
def phase : List Byte → Phase
  | [] => .idle
  | [_] => .idle
  | b0 :: b1 :: rest =>
    if isMarker b0 b1 then
      if rest.length + 2 < Params.rxLen then .wait else .ready
    else .hunt

end Sys2Proof.Machine
end

