-- ==== Sys2Proof/Machine/Ops.lean ====
section
/-! DEFINITION. The named operations over the state: deliveries on the ports, the queue operations of the framer and
its loop, raising an error of ENCODE, and the guards several meanings share. -/

namespace Sys2Proof.Machine

/-- The outcome of an operation of the codec. -/
abbrev Result := Host.Outcome State Fault Refusal

/-! ## Deliveries (00_scope.md R9, `emit port(v)`) -/

def State.setBuf (b : List Byte) (s : State) : State := { s with buf := b }
def State.setReset (s : State) : State := { s with buf := [], rstDone := true }
def State.setInput (bs : List Byte) (s : State) : State := { s with input := bs }
def State.emitFrameOut (f : List Byte) (s : State) : State := { s with frameOut := s.frameOut ++ [f] }
def State.emitReadings (r : Readings) (s : State) : State := { s with readingsOut := s.readingsOut ++ [r] }
def State.emitResult (r : EncodeResult) (s : State) : State := { s with encResult := s.encResult ++ [r] }
def State.emitValue (v : Value) (s : State) : State := { s with valueOut := s.valueOut ++ [v] }

/-! ## Status outputs (10_state.md R25) -/

def State.rxPhase (s : State) : Phase := phase s.buf
def State.rxLen (s : State) : Nat := s.buf.length

/-! ## The receive queue (41_framer.md R121, R125, R126) -/

/-- Append: the new byte goes to the back (R121). -/
def appendByte (b : Byte) (s : State) : State := s.setBuf (s.buf ++ [b])

/-- `F.DROP`: exactly the front byte is removed (R125). -/
def dropFront (s : State) : State := s.setBuf (s.buf.drop 1)

/-- `F.EMIT`: the first 65 bytes are removed, delivered as a frame and decoded (R126). -/
def emitFront (s : State) : State :=
  let f := memRead s.buf 0 Params.rxLen
  ((s.setBuf (s.buf.drop Params.rxLen)).emitFrameOut f).emitReadings (decodeFrame f)

/-- The loop of R123: the micro-step of the phase, repeated after F.DROP and F.EMIT. -/
def framerLoop : Nat → State → State
  | 0, s => s
  | k + 1, s =>
    match phase s.buf with
    | .idle => s
    | .hunt => framerLoop k (dropFront s)
    | .wait => s
    | .ready => framerLoop k (emitFront s)

/-- The loop run until it ends: every repetition shortens the buffer (R130), so its length is fuel enough. -/
def runFramer (s : State) : State := framerLoop s.buf.length s

/-- One `FEEDB`: append, then the loop (R128). -/
def feedByte (s : State) (b : Byte) : State := runFramer (appendByte b s)

/-- `FEED`: the bytes in order (R129). -/
def feedBytes (s : State) (bs : List Byte) : State := bs.foldl feedByte s

/-! ## Errors (60_exceptions.md R231) -/

/-- `raise K`: ENCODE ends, `enc_result` carries `Err K` and nothing else, no state is written. There is no return from
it: nothing is entered (R234). -/
def raiseError (k : EncErr) (s : State) : State := s.emitResult (.err k)

/-! ## Guards -/

/-- An RX operation that needs the buffer is refused before the first RST (70_reset_and_hazards.md R251). -/
def afterReset (s : State) (next : State) : Result := if s.rstDone then .next next else .refused .rxBeforeReset

/-- A micro-step, refused before the first RST and where the buffer does not select it (41_framer.md R123). -/
def microStep (p : Phase) (next : State) (s : State) : Result :=
  if s.rstDone then if phase s.buf = p then .next next else .refused .notSelected else .refused .rxBeforeReset

/-- A field extraction of a frame: its value is delivered, nothing else changes (42_telemetry_decoder.md R150, R151). -/
def extract (f : List Byte) (v : Value) (s : State) : Result :=
  if f.length = Params.rxLen then .next (s.emitValue v) else .refused .frameLength

/-- A segment writer: `n` bytes at `off` must fit the frame; the frame written is delivered (00_scope.md R9).
DESIGN CHOICE: ENCODE presents only an array of `41 + 10 N` bytes, `N <= 50` (20_memory.md R40), and only the frame's own
bases, `10 + 10 j` for E.POINT, `20 + 10 N` for E.CTRL and `27 + 10 N` for E.TAIL. The spec gives no meaning to a writer
issued alone on any other array or base; the model runs it wherever its segment fits (log 10). -/
def writeSegment (t : List Byte) (off n : Nat) (t' : List Byte) (s : State) : Result :=
  if fits t off n then .next (s.emitValue (.bytes t')) else .refused .outsideFrame

/-- A NumericCodec primitive: its result is delivered where the operand is in the domain (40_numeric_codec.md R97). -/
def primitive (domain : Bool) (v : Value) (s : State) : Result :=
  if domain then .next (s.emitValue v) else .refused .outsideDomain

end Sys2Proof.Machine
end

