-- ==== Sys2Proof/Machine/Command.lean ====
section
/-! DEFINITION. The CommandEncoder: the meanings of ENCODE and of the segment writers (43_command_encoder.md). -/

namespace Sys2Proof.Machine

/-- ENCODE (R190): the first failing check raises its error, otherwise the frame is delivered on `enc_result`. It
reads and writes no state of the codec (10_state.md R32), so it needs no RST (70_reset_and_hazards.md R251). -/
def execEncode (c : EncCmd) (s : State) : Result :=
  match firstError c with
  | some k => .next (raiseError k s)
  | none => .next (s.emitResult (encodeOk c))

/-- E.HDR (R200). -/
def execEHdr (t : List Byte) (s : State) : Result := writeSegment t Params.offHeader Params.hdrLen (writeHdr t) s

/-- E.TS (R201). -/
def execETs (t : List Byte) (secs : BitVec 64) (s : State) : Result :=
  writeSegment t Params.offTimestamp Params.tsLen (writeTs t secs) s

/-- E.POINT (R202). -/
def execEPoint (t : List Byte) (p : Nat) (lat lon : Q) (s : State) : Result :=
  writeSegment t p Params.pointLen (writePoint t p lat lon) s

/-- E.CTRL (R203). -/
def execECtrl (t : List Byte) (c : Nat) (pumpAuto pumpActive : Bool) (mode : BoatMode) (motor1 motor2 : BitVec 16)
    (s : State) : Result :=
  writeSegment t c Params.ctrlLen (writeCtrl t c pumpAuto pumpActive (modeCode mode) motor1 motor2) s

/-- E.TAIL (R204). -/
def execETail (t : List Byte) (o : Nat) (s : State) : Result :=
  writeSegment t o Params.tailLen (writeTail t o) s

end Sys2Proof.Machine
end

