-- ==== Sys2Proof/Machine/Framer.lean ====
section
/-! DEFINITION. The ByteStreamFramer: its reference algorithm and the meanings of its operations (41_framer.md). -/

namespace Sys2Proof.Machine

/-! ## The source's whole-sequence algorithm (41_framer.md R130) -/

/-- The loop of `feed_ref` on a buffer, with the frames found so far left to the caller. -/
def feedRefLoop : Nat → List Byte → List Byte × List (List Byte)
  | 0, b => (b, [])
  | k + 1, b =>
    if b.length < 2 then (b, [])
    else if ¬ (byteAt b 0 = Params.mark0 ∧ byteAt b 1 = Params.mark1) then feedRefLoop k (b.drop 1)
    else if b.length < Params.rxLen then (b, [])
    else
      let r := feedRefLoop k (b.drop Params.rxLen)
      (r.1, b.take Params.rxLen :: r.2)

/-- `feed_ref(B, s)`: the new buffer and the frames in order (R130). -/
def feedRef (b s : List Byte) : List Byte × List (List Byte) := feedRefLoop (b ++ s).length (b ++ s)

/-! ## Meanings -/

/-- RST (R120): the buffer is emptied; nothing is emitted. -/
def execRst (s : State) : Result := .next s.setReset

/-- FEEDB (R128). -/
def execFeedb (b : Byte) (s : State) : Result := afterReset s (feedByte s b)

/-- FEED (R129). -/
def execFeed (bs : List Byte) (s : State) : Result := afterReset s (feedBytes s bs)

/-- F.IDLE (R124): nothing is written. -/
def execFIdle (s : State) : Result := microStep .idle s s

/-- F.DROP (R125). -/
def execFDrop (s : State) : Result := microStep .hunt (dropFront s) s

/-- F.WAIT (R127): nothing is written. -/
def execFWait (s : State) : Result := microStep .wait s s

/-- F.EMIT (R126). -/
def execFEmit (s : State) : Result := microStep .ready (emitFront s) s

end Sys2Proof.Machine
end

