-- ==== Sys2Proof/Machine/Numeric.lean ====
section
/-! DEFINITION. The NumericCodec: the meanings of its primitives (40_numeric_codec.md). Each delivers its result and
changes nothing else (R97); a primitive with a stated domain is refused outside it (93_implementation_defined.md U9). -/

namespace Sys2Proof.Machine

/-- U8.UNPACK (R90). -/
def execU8Unpack (b0 : Byte) (s : State) : Result := primitive true (.u8 (u8Unpack b0)) s

/-- U8.PACK (R91). -/
def execU8Pack (v : Int) (s : State) : Result := primitive (u8Domain v) (.bytes (u8Pack v)) s

/-- U16LE.UNPACK (R92). -/
def execU16Unpack (b0 b1 : Byte) (s : State) : Result := primitive true (.u16 (u16Unpack b0 b1)) s

/-- U16LE.PACK (R93). -/
def execU16Pack (v : Int) (s : State) : Result := primitive (u16Domain v) (.bytes (u16Pack v)) s

/-- I16LE.UNPACK (R94). -/
def execI16Unpack (b0 b1 : Byte) (s : State) : Result := primitive true (.int (i16Unpack b0 b1)) s

/-- I64LE.PACK (R96). -/
def execI64Pack (v : Int) (s : State) : Result := primitive (i64Domain v) (.bytes (i64Pack v)) s

/-- HL.UNPACK (R100). -/
def execHlUnpack (h l : Byte) (s : State) : Result := primitive true (.q (hlUnpack h l)) s

/-- HL.PACK (R101). -/
def execHlPack (v : Q) (s : State) : Result := primitive (hlDomain v) (.bytes (hlPack v)) s

/-- F32LE.UNPACK (R104). -/
def execF32Unpack (b0 b1 b2 b3 : Byte) (s : State) : Result := primitive true (.xreal (f32Unpack b0 b1 b2 b3)) s

/-- F32LE.PACK (R103). -/
def execF32Pack (q : Q) (s : State) : Result := primitive (f32Domain q) (.bytes (f32Pack q)) s

/-- SF.UNPACK (R106). -/
def execSfUnpack (i b0 b1 b2 b3 : Byte) (s : State) : Result := primitive true (.xreal (sfUnpack i b0 b1 b2 b3)) s

/-- SF.PACK (R107): a meaning for every rational, the integer byte wraps (D17; log 14). -/
def execSfPack (v : Q) (s : State) : Result := primitive true (.bytes (sfPack v)) s

/-- SB.UNPACK (R108). -/
def execSbUnpack (i f : Byte) (s : State) : Result := primitive true (.q (sbUnpack i f)) s

/-- UB.UNPACK (R109). -/
def execUbUnpack (i f : Byte) (s : State) : Result := primitive true (.q (ubUnpack i f)) s

/-- BOOL8.PACK (R110). -/
def execBool8Pack (v : Bool) (s : State) : Result := primitive true (.bytes (bool8Pack v)) s

/-- CLAMP.MOTOR (R111). -/
def execClampMotor (v : Int) (s : State) : Result :=
  primitive (clampDomain v) (.u16 (BitVec.ofInt 16 (clampMotor v))) s

end Sys2Proof.Machine
end

