-- ==== Sys2Proof/Machine/Telemetry.lean ====
section
/-! DEFINITION. The TelemetryDecoder: the meanings of DECODE and of the field extractions
(42_telemetry_decoder.md). -/

namespace Sys2Proof.Machine

/-- DECODE (R150): the triple is delivered on `readings_out` (10_state.md R27; log 8). It reads no state, so it needs
no RST (70_reset_and_hazards.md R251). On 65 bytes that do not start with the marker pair it gives what the rules give
(R151); that claims about it cover such bytes is the model's choice (log 23). -/
def execDecode (f : List Byte) (s : State) : Result :=
  if f.length = Params.rxLen then .next (s.emitReadings (decodeFrame f)) else .refused .frameLength

/-- X.M1 (R153). -/
def execXM1 (f : List Byte) (s : State) : Result := extract f (.u16 (xM1 f)) s

/-- X.M2 (R154). -/
def execXM2 (f : List Byte) (s : State) : Result := extract f (.u16 (xM2 f)) s

/-- X.CO2 (R155). -/
def execXCo2 (f : List Byte) (s : State) : Result := extract f (.u16 (xCo2 f)) s

/-- X.CH2O (R156). -/
def execXCh2o (f : List Byte) (s : State) : Result := extract f (.rawU16 (xCh2o f).1 (xCh2o f).2) s

/-- X.TVOC (R157). -/
def execXTvoc (f : List Byte) (s : State) : Result := extract f (.rawU16 (xTvoc f).1 (xTvoc f).2) s

/-- X.PM25 (R158). -/
def execXPm25 (f : List Byte) (s : State) : Result := extract f (.u16 (xPm25 f)) s

/-- X.PM10 (R159). -/
def execXPm10 (f : List Byte) (s : State) : Result := extract f (.u16 (xPm10 f)) s

/-- X.AIRT (R160). -/
def execXAirT (f : List Byte) (s : State) : Result := extract f (.pair (xAirT f).1 (xAirT f).2.1 (xAirT f).2.2) s

/-- X.AIRH (R161). -/
def execXAirH (f : List Byte) (s : State) : Result := extract f (.pair (xAirH f).1 (xAirH f).2.1 (xAirH f).2.2) s

/-- X.TURB (R162). -/
def execXTurb (f : List Byte) (s : State) : Result := extract f (.u16 (xTurb f)) s

/-- X.PH (R163). -/
def execXPh (f : List Byte) (s : State) : Result := extract f (.rawU16 (xPh f).1 (xPh f).2) s

/-- X.TDS (R164). -/
def execXTds (f : List Byte) (s : State) : Result := extract f (.u16 (xTds f)) s

/-- X.WATT (R165). -/
def execXWatT (f : List Byte) (s : State) : Result := extract f (.pair (xWatT f).1 (xWatT f).2.1 (xWatT f).2.2) s

/-- X.WLVL (R166). -/
def execXWlvl (f : List Byte) (s : State) : Result := extract f (.rawInt (xWlvl f).1 (xWlvl f).2) s

/-- X.LAT (R167). -/
def execXLat (f : List Byte) (s : State) : Result := extract f (.coord (xLat f).1 (xLat f).2.1 (xLat f).2.2) s

/-- X.LON (R168). -/
def execXLon (f : List Byte) (s : State) : Result := extract f (.coord (xLon f).1 (xLon f).2.1 (xLon f).2.2) s

/-- X.HDG (R169). -/
def execXHdg (f : List Byte) (s : State) : Result := extract f (.signedPair (xHdg f).1 (xHdg f).2.1 (xHdg f).2.2) s

/-- X.SPD (R170). -/
def execXSpd (f : List Byte) (s : State) : Result := extract f (.pair (xSpd f).1 (xSpd f).2.1 (xSpd f).2.2) s

/-- X.BAT (R171). -/
def execXBat (f : List Byte) (s : State) : Result := extract f (.u16 (xBat f)) s

/-- X.MODE (R172). -/
def execXMode (f : List Byte) (s : State) : Result := extract f (.u8 (xMode f)) s

end Sys2Proof.Machine
end

