-- ==== Sys2Proof/Machine/Dispatch.lean ====
section
/-! DEFINITION. One arm per operation of the table (30_encoding.md R85), each one call of its meaning. -/

namespace Sys2Proof.Machine

def exec (i : Instr) (s : State) : Host.Outcome State Fault Refusal :=
  match i with
  | .rst => Sys2Proof.Machine.execRst s
  | .feedb b => Sys2Proof.Machine.execFeedb b s
  | .feed bytes => Sys2Proof.Machine.execFeed bytes s
  | .fIdle => Sys2Proof.Machine.execFIdle s
  | .fDrop => Sys2Proof.Machine.execFDrop s
  | .fWait => Sys2Proof.Machine.execFWait s
  | .fEmit => Sys2Proof.Machine.execFEmit s
  | .decode f => Sys2Proof.Machine.execDecode f s
  | .xM1 f => Sys2Proof.Machine.execXM1 f s
  | .xM2 f => Sys2Proof.Machine.execXM2 f s
  | .xCo2 f => Sys2Proof.Machine.execXCo2 f s
  | .xCh2o f => Sys2Proof.Machine.execXCh2o f s
  | .xTvoc f => Sys2Proof.Machine.execXTvoc f s
  | .xPm25 f => Sys2Proof.Machine.execXPm25 f s
  | .xPm10 f => Sys2Proof.Machine.execXPm10 f s
  | .xAirT f => Sys2Proof.Machine.execXAirT f s
  | .xAirH f => Sys2Proof.Machine.execXAirH f s
  | .xTurb f => Sys2Proof.Machine.execXTurb f s
  | .xPh f => Sys2Proof.Machine.execXPh f s
  | .xTds f => Sys2Proof.Machine.execXTds f s
  | .xWatT f => Sys2Proof.Machine.execXWatT f s
  | .xWlvl f => Sys2Proof.Machine.execXWlvl f s
  | .xLat f => Sys2Proof.Machine.execXLat f s
  | .xLon f => Sys2Proof.Machine.execXLon f s
  | .xHdg f => Sys2Proof.Machine.execXHdg f s
  | .xSpd f => Sys2Proof.Machine.execXSpd f s
  | .xBat f => Sys2Proof.Machine.execXBat f s
  | .xMode f => Sys2Proof.Machine.execXMode f s
  | .encode cmd => Sys2Proof.Machine.execEncode cmd s
  | .eHdr t => Sys2Proof.Machine.execEHdr t s
  | .eTs t secs => Sys2Proof.Machine.execETs t secs s
  | .ePoint t p lat lon => Sys2Proof.Machine.execEPoint t p lat lon s
  | .eCtrl t c pumpAuto pumpActive mode motor1 motor2 => Sys2Proof.Machine.execECtrl t c pumpAuto pumpActive mode motor1 motor2 s
  | .eTail t o => Sys2Proof.Machine.execETail t o s
  | .u8Unpack b0 => Sys2Proof.Machine.execU8Unpack b0 s
  | .u8Pack v => Sys2Proof.Machine.execU8Pack v s
  | .u16Unpack b0 b1 => Sys2Proof.Machine.execU16Unpack b0 b1 s
  | .u16Pack v => Sys2Proof.Machine.execU16Pack v s
  | .i16Unpack b0 b1 => Sys2Proof.Machine.execI16Unpack b0 b1 s
  | .i64Pack v => Sys2Proof.Machine.execI64Pack v s
  | .hlUnpack h l => Sys2Proof.Machine.execHlUnpack h l s
  | .hlPack v => Sys2Proof.Machine.execHlPack v s
  | .f32Unpack b0 b1 b2 b3 => Sys2Proof.Machine.execF32Unpack b0 b1 b2 b3 s
  | .f32Pack q => Sys2Proof.Machine.execF32Pack q s
  | .sfUnpack ip b0 b1 b2 b3 => Sys2Proof.Machine.execSfUnpack ip b0 b1 b2 b3 s
  | .sfPack v => Sys2Proof.Machine.execSfPack v s
  | .sbUnpack ip f => Sys2Proof.Machine.execSbUnpack ip f s
  | .ubUnpack ip f => Sys2Proof.Machine.execUbUnpack ip f s
  | .bool8Pack v => Sys2Proof.Machine.execBool8Pack v s
  | .clampMotor v => Sys2Proof.Machine.execClampMotor v s

end Sys2Proof.Machine
end

