-- ==== Sys2Proof/WellFormed.lean ====
section
/-! DEFINITION. The static conditions on an operation's operands: a frame of 65 bytes, a write that stays inside the
frame under construction, a primitive's operand inside its stated domain. -/

namespace Sys2Proof

open Machine

/-- The operand of DECODE and of every field extraction is a frame of exactly 65 bytes (42_telemetry_decoder.md R150,
R151, 93_implementation_defined.md U6). -/
def frameOk (f : List Byte) : Bool := f.length == Params.rxLen

/-- The operation's operands are ones its meaning runs on: those the spec gives it a meaning for and, for a segment
writer, also every array its segment fits, at every base, where ENCODE presents fewer (DESIGN CHOICE, log 10). -/
def Instr.wellFormed : Instr → Bool
  | .rst => true
  | .feedb _ => true
  | .feed _ => true
  | .fIdle => true
  | .fDrop => true
  | .fWait => true
  | .fEmit => true
  | .decode f => frameOk f
  | .xM1 f => frameOk f
  | .xM2 f => frameOk f
  | .xCo2 f => frameOk f
  | .xCh2o f => frameOk f
  | .xTvoc f => frameOk f
  | .xPm25 f => frameOk f
  | .xPm10 f => frameOk f
  | .xAirT f => frameOk f
  | .xAirH f => frameOk f
  | .xTurb f => frameOk f
  | .xPh f => frameOk f
  | .xTds f => frameOk f
  | .xWatT f => frameOk f
  | .xWlvl f => frameOk f
  | .xLat f => frameOk f
  | .xLon f => frameOk f
  | .xHdg f => frameOk f
  | .xSpd f => frameOk f
  | .xBat f => frameOk f
  | .xMode f => frameOk f
  | .encode _ => true
  | .eHdr t => fits t Params.offHeader Params.hdrLen
  | .eTs t _ => fits t Params.offTimestamp Params.tsLen
  | .ePoint t p _ _ => fits t p Params.pointLen
  | .eCtrl t c _ _ _ _ _ => fits t c Params.ctrlLen
  | .eTail t o => fits t o Params.tailLen
  | .u8Unpack _ => true
  | .u8Pack v => u8Domain v
  | .u16Unpack _ _ => true
  | .u16Pack v => u16Domain v
  | .i16Unpack _ _ => true
  | .i64Pack v => i64Domain v
  | .hlUnpack _ _ => true
  | .hlPack v => hlDomain v
  | .f32Unpack _ _ _ _ => true
  | .f32Pack q => f32Domain q
  | .sfUnpack _ _ _ _ _ => true
  | .sfPack _ => true
  | .sbUnpack _ _ => true
  | .ubUnpack _ _ => true
  | .bool8Pack _ => true
  | .clampMotor v => clampDomain v

end Sys2Proof
end

