-- ==== Sys2Proof/Decode.lean ====
section
/-! DEFINITION. Two decoders and an encoder.
`decodeHead` is the one decoding the spec gives: the framer's micro-step, read from the buffer (30_encoding.md R67,
41_framer.md R123).
`decode` and `encode` are the model's own byte form of an operation, so that a program (00_scope.md R12, "a finite
sequence of port transactions") is data: a selector byte, the operation's row number in spec/opcode_table.json counted
from 0, then its operands (log 1; DESIGN CHOICE: the spec gives operations no binary opcode). -/

namespace Sys2Proof

open Machine

/-! ## The framer's selection -/

/-- The micro-step the buffer selects (41_framer.md R123). -/
def decodeHead (b : List Byte) : Instr :=
  match phase b with
  | .idle => .fIdle
  | .hunt => .fDrop
  | .wait => .fWait
  | .ready => .fEmit

/-! ## Reading operands from bytes -/

/-- Reads one operand from the front of the bytes and answers what is left, or says why it cannot. -/
abbrev Parser (α : Type) := List Byte → Except Reject (α × List Byte)

/-- An operand of no bytes. -/
def Parser.done {α : Type} (a : α) : Parser α := fun bs => .ok (a, bs)

/-- One operand, then what follows it. -/
def Parser.andThen {α β : Type} (p : Parser α) (k : α → Parser β) : Parser β := fun bs =>
  match p bs with
  | .error e => .error e
  | .ok (a, rest) => k a rest

def parseByte : Parser Byte
  | [] => .error .truncated
  | b :: bs => .ok (b, bs)

/-- `n` bytes as they stand. -/
def parseBytes (n : Nat) : Parser (List Byte) := fun bs =>
  if n ≤ bs.length then .ok (bs.take n, bs.drop n) else .error .truncated

/-- A number of any size: seven bits a byte, least significant first, bit 7 set on every byte but the last; the
shortest form only. -/
def parseNat : Parser Nat
  | [] => .error .truncated
  | b :: bs =>
    if b.toNat < 128 then .ok (b.toNat, bs)
    else
      match parseNat bs with
      | .error e => .error e
      | .ok (n, rest) => if n = 0 then .error .badNumber else .ok (b.toNat - 128 + 128 * n, rest)

def parseBool : Parser Bool := parseByte.andThen fun b =>
  if b = 0 then .done false else if b = 1 then .done true else fun _ => .error .badChoice

/-- A signed number: a sign byte (1 for negative), then the magnitude; zero is not negative. -/
def parseInt : Parser Int := parseBool.andThen fun neg => parseNat.andThen fun n =>
  if neg then (if n = 0 then fun _ => .error .badNumber else .done (-(n : Int))) else .done (n : Int)

/-- A rational in lowest terms: the numerator, then the denominator less one. -/
def parseQ : Parser Q := parseInt.andThen fun num => parseNat.andThen fun d =>
  if h : num.natAbs.Coprime (d + 1) then .done { num := num, den := d + 1, den_nz := by omega, reduced := h }
  else fun _ => .error .badRational

/-- A byte sequence: its length, then its bytes. -/
def parseSeq : Parser (List Byte) := parseNat.andThen parseBytes

def parseU16 : Parser (BitVec 16) := parseByte.andThen fun b0 => parseByte.andThen fun b1 => .done (b1 ++ b0)

def parseU64 : Parser (BitVec 64) :=
  parseU16.andThen fun w0 => parseU16.andThen fun w1 => parseU16.andThen fun w2 => parseU16.andThen fun w3 =>
    .done (w3 ++ w2 ++ w1 ++ w0)

def parsePoint : Parser PointIn := parseBool.andThen fun valid => parseQ.andThen fun lat => parseQ.andThen fun lon =>
  .done { valid := valid, lat := lat, lon := lon }

def parsePoints : Nat → Parser (List PointIn)
  | 0 => .done []
  | n + 1 => parsePoint.andThen fun p => (parsePoints n).andThen fun ps => .done (p :: ps)

def parseMode2 : Parser (BitVec 2) := parseByte.andThen fun b =>
  if b.toNat < 4 then .done (BitVec.ofNat 2 b.toNat) else fun _ => .error .badChoice

def parseBoatMode : Parser BoatMode := parseByte.andThen fun b =>
  if b = 0 then .done .manual else if b = 1 then .done .auto else if b = 2 then .done .positionHold
  else fun _ => .error .badChoice

/-- The inputs of ENCODE in the order of 10_state.md R30. -/
def parseCmd : Parser EncCmd :=
  parsePoint.andThen fun home => parseBool.andThen fun tsValid => parseU64.andThen fun secs =>
  parseNat.andThen fun n => (parsePoints n).andThen fun wps => parseBool.andThen fun pumpAuto =>
  parseBool.andThen fun pumpActive => parseMode2.andThen fun mode => parseU16.andThen fun motor1 =>
  parseU16.andThen fun motor2 =>
    .done { home := home, ts := { valid := tsValid, secs := secs }, wps := wps, pumpAuto := pumpAuto,
            pumpActive := pumpActive, mode := mode, motor1 := motor1, motor2 := motor2 }

/-- A receive frame, 65 bytes. -/
def parseFrame : Parser (List Byte) := parseBytes Params.rxLen

/-! ## Operations from bytes -/

/-- The operands of the operation in row `sel` of spec/opcode_table.json, rows counted from 0. -/
def parseOperands (sel : Nat) : Parser Instr :=
  match sel with
  | 0 => .done .rst
  | 1 => parseByte.andThen fun b => .done (.feedb b)
  | 2 => parseSeq.andThen fun bs => .done (.feed bs)
  | 3 => .done .fIdle
  | 4 => .done .fDrop
  | 5 => .done .fWait
  | 6 => .done .fEmit
  | 7 => parseFrame.andThen fun f => .done (.decode f)
  | 8 => parseFrame.andThen fun f => .done (.xM1 f)
  | 9 => parseFrame.andThen fun f => .done (.xM2 f)
  | 10 => parseFrame.andThen fun f => .done (.xCo2 f)
  | 11 => parseFrame.andThen fun f => .done (.xCh2o f)
  | 12 => parseFrame.andThen fun f => .done (.xTvoc f)
  | 13 => parseFrame.andThen fun f => .done (.xPm25 f)
  | 14 => parseFrame.andThen fun f => .done (.xPm10 f)
  | 15 => parseFrame.andThen fun f => .done (.xAirT f)
  | 16 => parseFrame.andThen fun f => .done (.xAirH f)
  | 17 => parseFrame.andThen fun f => .done (.xTurb f)
  | 18 => parseFrame.andThen fun f => .done (.xPh f)
  | 19 => parseFrame.andThen fun f => .done (.xTds f)
  | 20 => parseFrame.andThen fun f => .done (.xWatT f)
  | 21 => parseFrame.andThen fun f => .done (.xWlvl f)
  | 22 => parseFrame.andThen fun f => .done (.xLat f)
  | 23 => parseFrame.andThen fun f => .done (.xLon f)
  | 24 => parseFrame.andThen fun f => .done (.xHdg f)
  | 25 => parseFrame.andThen fun f => .done (.xSpd f)
  | 26 => parseFrame.andThen fun f => .done (.xBat f)
  | 27 => parseFrame.andThen fun f => .done (.xMode f)
  | 28 => parseCmd.andThen fun c => .done (.encode c)
  | 29 => parseSeq.andThen fun t => .done (.eHdr t)
  | 30 => parseSeq.andThen fun t => parseU64.andThen fun secs => .done (.eTs t secs)
  | 31 => parseSeq.andThen fun t => parseNat.andThen fun p => parseQ.andThen fun lat => parseQ.andThen fun lon =>
      .done (.ePoint t p lat lon)
  | 32 => parseSeq.andThen fun t => parseNat.andThen fun c => parseBool.andThen fun pa => parseBool.andThen fun pv =>
      parseBoatMode.andThen fun m => parseU16.andThen fun m1 => parseU16.andThen fun m2 =>
      .done (.eCtrl t c pa pv m m1 m2)
  | 33 => parseSeq.andThen fun t => parseNat.andThen fun o => .done (.eTail t o)
  | 34 => parseByte.andThen fun b => .done (.u8Unpack b)
  | 35 => parseInt.andThen fun v => .done (.u8Pack v)
  | 36 => parseByte.andThen fun b0 => parseByte.andThen fun b1 => .done (.u16Unpack b0 b1)
  | 37 => parseInt.andThen fun v => .done (.u16Pack v)
  | 38 => parseByte.andThen fun b0 => parseByte.andThen fun b1 => .done (.i16Unpack b0 b1)
  | 39 => parseInt.andThen fun v => .done (.i64Pack v)
  | 40 => parseByte.andThen fun h => parseByte.andThen fun l => .done (.hlUnpack h l)
  | 41 => parseQ.andThen fun v => .done (.hlPack v)
  | 42 => parseByte.andThen fun b0 => parseByte.andThen fun b1 => parseByte.andThen fun b2 =>
      parseByte.andThen fun b3 => .done (.f32Unpack b0 b1 b2 b3)
  | 43 => parseQ.andThen fun q => .done (.f32Pack q)
  | 44 => parseByte.andThen fun i => parseByte.andThen fun b0 => parseByte.andThen fun b1 =>
      parseByte.andThen fun b2 => parseByte.andThen fun b3 => .done (.sfUnpack i b0 b1 b2 b3)
  | 45 => parseQ.andThen fun v => .done (.sfPack v)
  | 46 => parseByte.andThen fun i => parseByte.andThen fun f => .done (.sbUnpack i f)
  | 47 => parseByte.andThen fun i => parseByte.andThen fun f => .done (.ubUnpack i f)
  | 48 => parseBool.andThen fun v => .done (.bool8Pack v)
  | 49 => parseInt.andThen fun v => .done (.clampMotor v)
  | _ => fun _ => .error .noSuchOperation

/-- One operation from the front of the bytes, with the bytes after it. -/
def decode : Parser Instr := parseByte.andThen fun sel => parseOperands sel.toNat

/-! ## Operations to bytes -/

def encodeNatFuel : Nat → Nat → List Byte
  | 0, n => [BitVec.ofNat 8 n]
  | k + 1, n => if n < 128 then [BitVec.ofNat 8 n] else BitVec.ofNat 8 (128 + n % 128) :: encodeNatFuel k (n / 128)

def encodeNat (n : Nat) : List Byte := encodeNatFuel n n

def encodeBool (v : Bool) : List Byte := if v then [1] else [0]

def encodeInt (v : Int) : List Byte := encodeBool (decide (v < 0)) ++ encodeNat v.natAbs

def encodeQ (q : Q) : List Byte := encodeInt q.num ++ encodeNat (q.den - 1)

def encodeSeq (bs : List Byte) : List Byte := encodeNat bs.length ++ bs

def encodeU16 (w : BitVec 16) : List Byte := [w.extractLsb' 0 8, w.extractLsb' 8 8]

def encodeU64 (w : BitVec 64) : List Byte :=
  encodeU16 (w.extractLsb' 0 16) ++ (encodeU16 (w.extractLsb' 16 16) ++
    (encodeU16 (w.extractLsb' 32 16) ++ encodeU16 (w.extractLsb' 48 16)))

def encodePoint (p : PointIn) : List Byte := encodeBool p.valid ++ (encodeQ p.lat ++ encodeQ p.lon)

def encodePoints : List PointIn → List Byte
  | [] => []
  | p :: ps => encodePoint p ++ encodePoints ps

def encodeMode2 (m : BitVec 2) : List Byte := [BitVec.ofNat 8 m.toNat]

def encodeBoatMode : BoatMode → List Byte
  | .manual => [0]
  | .auto => [1]
  | .positionHold => [2]

def encodeCmd (c : EncCmd) : List Byte :=
  encodePoint c.home ++ (encodeBool c.ts.valid ++ (encodeU64 c.ts.secs ++ (encodeNat c.wps.length ++
    (encodePoints c.wps ++ (encodeBool c.pumpAuto ++ (encodeBool c.pumpActive ++ (encodeMode2 c.mode ++
      (encodeU16 c.motor1 ++ encodeU16 c.motor2))))))))

/-- The words of an operation: its selector byte and its operands. -/
def encode : Instr → List Byte
  | .rst => [0]
  | .feedb b => [1, b]
  | .feed bs => 2 :: encodeSeq bs
  | .fIdle => [3]
  | .fDrop => [4]
  | .fWait => [5]
  | .fEmit => [6]
  | .decode f => 7 :: f
  | .xM1 f => 8 :: f
  | .xM2 f => 9 :: f
  | .xCo2 f => 10 :: f
  | .xCh2o f => 11 :: f
  | .xTvoc f => 12 :: f
  | .xPm25 f => 13 :: f
  | .xPm10 f => 14 :: f
  | .xAirT f => 15 :: f
  | .xAirH f => 16 :: f
  | .xTurb f => 17 :: f
  | .xPh f => 18 :: f
  | .xTds f => 19 :: f
  | .xWatT f => 20 :: f
  | .xWlvl f => 21 :: f
  | .xLat f => 22 :: f
  | .xLon f => 23 :: f
  | .xHdg f => 24 :: f
  | .xSpd f => 25 :: f
  | .xBat f => 26 :: f
  | .xMode f => 27 :: f
  | .encode c => 28 :: encodeCmd c
  | .eHdr t => 29 :: encodeSeq t
  | .eTs t secs => 30 :: (encodeSeq t ++ encodeU64 secs)
  | .ePoint t p lat lon => 31 :: (encodeSeq t ++ (encodeNat p ++ (encodeQ lat ++ encodeQ lon)))
  | .eCtrl t c pa pv m m1 m2 =>
    32 :: (encodeSeq t ++ (encodeNat c ++ (encodeBool pa ++ (encodeBool pv ++ (encodeBoatMode m ++
      (encodeU16 m1 ++ encodeU16 m2))))))
  | .eTail t o => 33 :: (encodeSeq t ++ encodeNat o)
  | .u8Unpack b0 => [34, b0]
  | .u8Pack v => 35 :: encodeInt v
  | .u16Unpack b0 b1 => [36, b0, b1]
  | .u16Pack v => 37 :: encodeInt v
  | .i16Unpack b0 b1 => [38, b0, b1]
  | .i64Pack v => 39 :: encodeInt v
  | .hlUnpack h l => [40, h, l]
  | .hlPack v => 41 :: encodeQ v
  | .f32Unpack b0 b1 b2 b3 => [42, b0, b1, b2, b3]
  | .f32Pack q => 43 :: encodeQ q
  | .sfUnpack i b0 b1 b2 b3 => [44, i, b0, b1, b2, b3]
  | .sfPack v => 45 :: encodeQ v
  | .sbUnpack i f => [46, i, f]
  | .ubUnpack i f => [47, i, f]
  | .bool8Pack v => 48 :: encodeBool v
  | .clampMotor v => 49 :: encodeInt v

/-! ## The host's numbering of a table row -/

/-- The bytes of a table word: byte `k` is bits `8k+7 .. 8k`, then zeros up to the longest operation of zero
operands, an operation byte and a receive frame. -/
def tableBytes (nbits w : Nat) : List Byte :=
  (List.range ((nbits + 7) / 8)).map (fun k => BitVec.ofNat 8 (w / 2 ^ (8 * k))) ++ List.replicate (1 + Params.rxLen) 0

/-- A 16-bit table word as the two buffered bytes it stands for: the first byte is the upper half (30_encoding.md R67). -/
def headBytes (w : Nat) : List Byte := [BitVec.ofNat 8 (w / 256), BitVec.ofNat 8 w]

/-- The operation the decoder reads from a table word. A word of 16 bits is the framer's head test, the only rows of
the table with a bit pattern (30_encoding.md R67); every other word is an operation in the model's byte form (log 16). -/
def decodeTableWord (nbits w : Nat) : Option Instr :=
  if nbits = 16 then some (decodeHead (headBytes w))
  else
    match decode (tableBytes nbits w) with
    | .ok (i, _) => some i
    | .error _ => none

/-- The bytes of exactly the one operation a table word stands for, or all of them where they are none. -/
def tableOperation (nbits w : Nat) : List Byte :=
  match decode (tableBytes nbits w) with
  | .ok (_, rest) => (tableBytes nbits w).take ((tableBytes nbits w).length - rest.length)
  | .error _ => tableBytes nbits w

end Sys2Proof
end

