-- ==== Sys2Proof/Machine/Fetch.lean ====
section
/-! DEFINITION. What the next step runs: the operation at the front of the input, or, with none pending, the
micro-step the buffer selects (log 2, log 3); and how the host's table word is placed there (log 16). -/

namespace Sys2Proof.Machine

/-- What a step finds to do. -/
inductive Fetched where
  /-- nothing: no transaction is pending and no RST has happened -/
  | idle
  /-- an operation, with what is left of the input -/
  | run (i : Instr) (rest : List Byte)
  /-- the input is no operation -/
  | reject (r : Reject)
deriving DecidableEq, Repr

/-- With a transaction pending, its operation. With none, the micro-step selected by the buffer: between transactions
that is F.IDLE or F.WAIT, which write nothing (10_state.md R22, 41_framer.md R123; log 3). -/
def fetch (s : State) : Fetched :=
  match s.input with
  | [] => if s.rstDone then .run (decodeHead s.buf) [] else .idle
  | b :: bs =>
    match decode (b :: bs) with
    | .ok (i, rest) => .run i rest
    | .error r => .reject r

/-- A table word placed where the next step finds it: a 16-bit word as the first two bytes of the buffer, with no
transaction pending; any other word as the pending transaction. -/
def placeWord (s : State) (nbits w : Nat) : State :=
  if nbits = 16 then { s with buf := headBytes w, rstDone := true, input := [] }
  else s.setInput (tableOperation nbits w)

end Sys2Proof.Machine
end

