-- ==== Sys2Proof/Machine/Step.lean ====
section
/-! DEFINITION. One step of the codec. -/

namespace Sys2Proof.Machine

/-- One operation, to completion (00_scope.md R5, 20_memory.md R49); nothing where there is nothing to do
(60_exceptions.md R240). -/
def step (s : State) : Host.Outcome State Fault Refusal :=
  match fetch s with
  | .idle => .next s
  | .run i rest => exec i (s.setInput rest)
  | .reject r => .refused (.badTransaction r)

/-- `s` with the table word stored where `step` finds its next operation (log 16). -/
def State.withFetchWord (s : State) (nbits w : Nat) : State := placeWord s nbits w

end Sys2Proof.Machine
end

