-- ==== Sys2Proof/Safety.lean ====
section
/-! DEFINITION. What a safe state is: the buffer as it stands between transactions (10_state.md R22), and on the ports
only whole, syntactically valid frames (30_encoding.md R61, R76; 20_memory.md R45). -/

namespace Sys2Proof.Machine

/-- The buffer fits its storage (10_state.md R21). -/
def bufferFits (b : List Byte) : Bool := b.length ≤ Params.bufCap

/-- The buffer between transactions: empty, one byte of any value, or the marker pair and at most 64 bytes
(10_state.md R22). -/
def bufferSettled : List Byte → Bool
  | [] => true
  | [_] => true
  | b0 :: b1 :: rest => b0 == Params.mark0 && b1 == Params.mark1 && decide (rest.length + 2 < Params.rxLen)

/-- A syntactically valid receive frame: 65 bytes, the first two the marker pair (30_encoding.md R61). -/
def validFrame (f : List Byte) : Bool :=
  f.length == Params.rxLen && f.take 2 == [Params.mark0, Params.mark1]

/-- A result of ENCODE as port `enc_result` may carry it: an error, or a whole frame of `41 + 10 n` bytes with at most
50 waypoints that begins with the marker pair and ends with the 14 zero bytes (30_encoding.md R76, R80, R81). -/
def validResult : EncodeResult → Bool
  | .err _ => true
  | .ok bytes n _ _ =>
    decide (n ≤ Params.maxWp) && bytes.length == Params.txLen n && bytes.take 2 == [Params.mark0, Params.mark1] &&
      bytes.drop (Params.offTail n) == List.replicate Params.tailLen 0

/-- The invariant of the codec between transactions. -/
structure State.Inv (s : State) : Prop where
  /-- once reset, the buffer is settled (R22); before the first RST nothing is known of it (R251) -/
  settled : s.rstDone = true → bufferSettled s.buf = true
  /-- every frame delivered is syntactically valid (41_framer.md R133) -/
  frames : ∀ f ∈ s.frameOut, validFrame f = true
  /-- every result delivered is an error or a whole send frame (20_memory.md R45) -/
  results : ∀ r ∈ s.encResult, validResult r = true

/-- The operation answers a next state: it is neither refused nor stopped. -/
def Completes (i : Instr) (s : State) : Prop := ∃ s', exec i s = .next s'

end Sys2Proof.Machine
end

