-- ==== Sys2Proof/Certificates/Slice0/Obligations.lean ====
section
/-! DEFINITION. The statements about the model, each from the spec's rules.
`byteAt f k` is byte `k` of `f`, and `.next { s with … }` says that every part of the state not named is unchanged. -/

open Sys2Proof Sys2Proof.Machine

/-! ## Reset and the operations at the RX ports -/

/-- 41_framer.md R120: RST empties the buffer, emits nothing, touches nothing of the TX agent, and twice is once.
That it also counts as the RST of R251 is log 4. -/
def Obligations.RstEmptiesBuffer : Prop :=
  ∀ s : State, exec .rst s = .next { s with buf := [], rstDone := true } ∧
    exec .rst { s with buf := [], rstDone := true } = .next { s with buf := [], rstDone := true }

/-- 70_reset_and_hazards.md R251: before the first RST the RX operations are refused; ENCODE and DECODE complete.
That the four micro-steps are among the RX operations refused is 10_state.md R20. -/
def Obligations.RxIsRefusedBeforeFirstRst : Prop :=
  ∀ s : State, s.rstDone = false →
    (∀ b, exec (.feedb b) s = .refused .rxBeforeReset) ∧ (∀ bs, exec (.feed bs) s = .refused .rxBeforeReset) ∧
    (∀ i ∈ [Instr.fIdle, .fDrop, .fWait, .fEmit], exec i s = .refused .rxBeforeReset) ∧
    (∀ c, Completes (.encode c) s) ∧ (∀ f, f.length = 65 → Completes (.decode f) s)

/-- 41_framer.md R128: FEEDB is the reference algorithm on the one byte, each frame emitted and decoded, no frame or one
from every buffer allowed between transactions. -/
def Obligations.FeedbIsReferenceFeed : Prop :=
  ∀ (s : State) (b : Byte), s.rstDone = true →
    exec (.feedb b) s = .next { s with
      buf := (feedRef s.buf [b]).1
      frameOut := s.frameOut ++ (feedRef s.buf [b]).2
      readingsOut := s.readingsOut ++ (feedRef s.buf [b]).2.map decodeFrame } ∧
    (bufferSettled s.buf = true → (feedRef s.buf [b]).2.length ≤ 1)

/-- 41_framer.md R129, 30_encoding.md R87: FEED is the FEEDBs of its bytes in order, FEED of no bytes does nothing, and
on every buffer allowed between transactions FEED ends with the buffer and emits the frames of the source's
whole-sequence algorithm. -/
def Obligations.FeedIsReferenceFeed : Prop :=
  ∀ s : State, s.rstDone = true →
    exec (.feed []) s = .next s ∧
    (∀ b bs, ∃ s1, exec (.feedb b) s = .next s1 ∧ exec (.feed (b :: bs)) s = exec (.feed bs) s1) ∧
    (bufferSettled s.buf = true → ∀ bs, exec (.feed bs) s = .next { s with
      buf := (feedRef s.buf bs).1
      frameOut := s.frameOut ++ (feedRef s.buf bs).2
      readingsOut := s.readingsOut ++ (feedRef s.buf bs).2.map decodeFrame })

/-- 41_framer.md R129: how a stream is cut into feeds never matters, for FEED and for the reference algorithm. -/
def Obligations.ChunkingNeverMatters : Prop :=
  (∀ (s : State) (xs ys : List Byte), s.rstDone = true →
    ∃ s1, exec (.feed xs) s = .next s1 ∧ exec (.feed ys) s1 = exec (.feed (xs ++ ys)) s) ∧
  ∀ b xs ys : List Byte, feedRef b (xs ++ ys) =
    ((feedRef (feedRef b xs).1 ys).1, (feedRef b xs).2 ++ (feedRef (feedRef b xs).1 ys).2)

/-- 41_framer.md R131: FEEDB from every state allowed between transactions, row by row, with the micro-steps the
appended buffer selects. -/
def Obligations.FeedbTransitionTable : Prop :=
  ∀ (s : State) (b : Byte), s.rstDone = true →
    (s.buf = [] → exec (.feedb b) s = .next { s with buf := [b] } ∧ decodeHead [b] = .fIdle) ∧
    (∀ a, s.buf = [a] → a = 0xFF ∧ b = 0xFE →
      exec (.feedb b) s = .next { s with buf := [0xFF, 0xFE] } ∧ decodeHead [a, b] = .fWait) ∧
    (∀ a, s.buf = [a] → ¬ (a = 0xFF ∧ b = 0xFE) →
      exec (.feedb b) s = .next { s with buf := [b] } ∧ decodeHead [a, b] = .fDrop ∧ decodeHead [b] = .fIdle) ∧
    (∀ p, s.buf = 0xFF :: 0xFE :: p → p.length ≤ 61 →
      exec (.feedb b) s = .next { s with buf := 0xFF :: 0xFE :: (p ++ [b]) } ∧
      decodeHead (0xFF :: 0xFE :: (p ++ [b])) = .fWait) ∧
    (∀ p, s.buf = 0xFF :: 0xFE :: p → p.length = 62 →
      exec (.feedb b) s = .next { s with
        buf := []
        frameOut := s.frameOut ++ [0xFF :: 0xFE :: (p ++ [b])]
        readingsOut := s.readingsOut ++ [decodeFrame (0xFF :: 0xFE :: (p ++ [b]))] } ∧
      decodeHead (0xFF :: 0xFE :: (p ++ [b])) = .fEmit ∧ decodeHead [] = .fIdle)

/-! ## Properties of the framer -/

/-- 41_framer.md R133: every frame a feed emits is 65 consecutive bytes of the stream and starts with the marker pair. -/
def Obligations.EmittedFramesStartWithMarkers : Prop :=
  ∀ (s : State) (bs : List Byte), s.rstDone = true →
    ∃ s' fs, exec (.feed bs) s = .next s' ∧ s'.frameOut = s.frameOut ++ fs ∧
      ∀ f ∈ fs, f.length = 65 ∧ f.take 2 = [0xFF, 0xFE] ∧ f <:+: s.buf ++ bs

/-- 41_framer.md R132: the bytes of the emitted frames followed by the buffer are a subsequence, in order, of the bytes
that were there; what is missing from it was dropped. -/
def Obligations.BytesAreConserved : Prop :=
  ∀ (s : State) (bs : List Byte), s.rstDone = true →
    ∃ s' fs, exec (.feed bs) s = .next s' ∧ s'.frameOut = s.frameOut ++ fs ∧
      (fs.flatten ++ s'.buf).Sublist (s.buf ++ bs) ∧ fs.flatten.length = 65 * fs.length

/-- 10_state.md R22, 41_framer.md R137: between transactions the buffer is settled and holds at most 64 bytes, so a
FEEDB never needs more than 65. -/
def Obligations.BufferNeverExceedsCapacity : Prop :=
  ∀ (s : State) (b : Byte), s.rstDone = true → bufferSettled s.buf = true →
    (s.buf ++ [b]).length ≤ 65 ∧
    ∃ s', exec (.feedb b) s = .next s' ∧ bufferSettled s'.buf = true ∧ s'.buf.length ≤ 64

/-- 41_framer.md R134: a run of garbage in which no `FF` is followed by `FE`, before a frame, is discarded and the frame
is extracted. -/
def Obligations.GarbageIsDroppedBeforeFrame : Prop :=
  ∀ (s : State) (g f : List Byte), s.rstDone = true → s.buf = [] → ¬ [0xFF, 0xFE] <:+: g → validFrame f = true →
    exec (.feed (g ++ f)) s = .next { s with
      buf := []
      frameOut := s.frameOut ++ [f]
      readingsOut := s.readingsOut ++ [decodeFrame f] }

/-- 41_framer.md R135: a frame split in two feeds is emitted once, after the second, none after the first. -/
def Obligations.SplitFrameIsEmittedOnce : Prop :=
  ∀ (s : State) (xs ys : List Byte), s.rstDone = true → s.buf = [] → validFrame (xs ++ ys) = true → ys ≠ [] →
    exec (.feed xs) s = .next { s with buf := xs } ∧
    exec (.feed ys) { s with buf := xs } = .next { s with
      buf := []
      frameOut := s.frameOut ++ [xs ++ ys]
      readingsOut := s.readingsOut ++ [decodeFrame (xs ++ ys)] }

/-- 41_framer.md R136: the same frame fed twice gives the frame twice and two identical triples. -/
def Obligations.SameFrameTwiceDecodesTwice : Prop :=
  ∀ (s : State) (f : List Byte), s.rstDone = true → s.buf = [] → validFrame f = true →
    ∃ r, exec (.feed f) s = .next { s with
        buf := []
        frameOut := s.frameOut ++ [f]
        readingsOut := s.readingsOut ++ [r] } ∧
      exec (.feed f) { s with buf := [], frameOut := s.frameOut ++ [f], readingsOut := s.readingsOut ++ [r] } =
        .next { s with
          buf := []
          frameOut := s.frameOut ++ [f, f]
          readingsOut := s.readingsOut ++ [r, r] }

/-! ## The micro-steps -/

/-- 41_framer.md R124, R125, R126, R127: each micro-step on the buffer that selects it. -/
def Obligations.MicroStepEffects : Prop :=
  ∀ s : State, s.rstDone = true →
    (s.buf.length < 2 → exec .fIdle s = .next s) ∧
    (∀ a b rest, s.buf = a :: b :: rest → ¬ (a = 0xFF ∧ b = 0xFE) →
      exec .fDrop s = .next { s with buf := b :: rest }) ∧
    (∀ p, s.buf = 0xFF :: 0xFE :: p → p.length < 63 → exec .fWait s = .next s) ∧
    (∀ p rest, s.buf = 0xFF :: 0xFE :: (p ++ rest) → p.length = 63 →
      exec .fEmit s = .next { s with
        buf := rest
        frameOut := s.frameOut ++ [0xFF :: 0xFE :: p]
        readingsOut := s.readingsOut ++ [decodeFrame (0xFF :: 0xFE :: p)] })

/-- 41_framer.md R123: exactly one micro-step is selected by a buffer. That the other three are refused is log 9. -/
def Obligations.ExactlyOneMicroStepSelected : Prop :=
  ∀ (s : State) (i : Instr), s.rstDone = true → i ∈ [Instr.fIdle, .fDrop, .fWait, .fEmit] →
    (Completes i s ↔ i = decodeHead s.buf) ∧ (i ≠ decodeHead s.buf → exec i s = .refused .notSelected)

/-- 30_encoding.md R67: with `h = BUF[0] x 256 + BUF[1]`, `h = 0xFFFE` selects F.WAIT or F.EMIT by length, every other
value F.DROP. -/
def Obligations.HeadTestSelectsMicroStep : Prop :=
  ∀ (b0 b1 : Byte) (rest : List Byte),
    (b0.toNat * 256 + b1.toNat = 0xFFFE → rest.length < 63 → decodeHead (b0 :: b1 :: rest) = .fWait) ∧
    (b0.toNat * 256 + b1.toNat = 0xFFFE → 63 ≤ rest.length → decodeHead (b0 :: b1 :: rest) = .fEmit) ∧
    (b0.toNat * 256 + b1.toNat ≠ 0xFFFE → decodeHead (b0 :: b1 :: rest) = .fDrop)

/-! ## Every step -/

/-- 10_state.md R22, 41_framer.md R133, 20_memory.md R45: every step keeps the invariant. -/
def Obligations.StepKeepsInvariant : Prop :=
  ∀ s s' : State, s.Inv → step s = .next s' → s'.Inv

/-- 10_state.md R35: after reset LEN is 0, the phase is IDLE and rx_len is 0; and the reset state meets the
invariant. -/
def Obligations.ResetMeetsInvariant : Prop :=
  State.reset.Inv ∧ State.reset.buf = [] ∧ State.reset.rxPhase = .idle ∧ State.reset.rxLen = 0

/-- 60_exceptions.md R240: with no transaction pending, the codec is idle and all of its state is unchanged. That an
idle step is the micro-step the buffer selects is log 3. -/
def Obligations.IdleStepChangesNothing : Prop :=
  ∀ s : State, s.Inv → s.input = [] → step s = .next s

/-- A step runs the operation decoded at the front of the input, with the input moved past it; with none pending, the
micro-step the buffer selects; and bytes that are no operation are refused (log 1, log 2, log 3). -/
def Obligations.StepRunsTheDecodedOperation : Prop :=
  ∀ s : State,
    (∀ i rest, decode s.input = .ok (i, rest) → step s = exec i { s with input := rest }) ∧
    (∀ i rest, i.wellFormed = true → s.input = encode i ++ rest → step s = exec i { s with input := rest }) ∧
    (∀ r, s.input ≠ [] → decode s.input = .error r → step s = .refused (.badTransaction r)) ∧
    (s.input = [] → s.rstDone = true → step s = exec (decodeHead s.buf) s)

/-- Every well-formed operation completes after an RST; a micro-step where the buffer selects it
(93_implementation_defined.md: "every port transaction has a rule for every input, with the refusals above as the only
exclusions"; log 4). Of a segment writer `wellFormed` asks only that its segment fits: its completion on arrays that are
no send frame and at bases ENCODE never presents is the model's choice (log 10). A micro-step issued alone is log 9, where a
DECODE issued alone and the operations without a port deliver is log 8 and log 7, the domains of the extractions and of
CLAMP.MOTOR are log 12, and that a frame needs no marker pair is log 23. -/
def Obligations.WellFormedOperationsComplete : Prop :=
  ∀ (i : Instr) (s : State), i.wellFormed = true → s.rstDone = true →
    (i ∈ [Instr.fIdle, .fDrop, .fWait, .fEmit] → i = decodeHead s.buf) → Completes i s

/-- 10_state.md R21, R23: only RST, FEEDB, FEED, F.DROP and F.EMIT change the buffer; and each output port is written
by its own operations alone (R27); link_open is written by none (R26). That nothing delivered is ever taken back, not
even by RST, is the model's choice of ports as growing lists (log 5, and log 7 for `valueOut`); that no operation
changes the input is its choice of the input queue (log 2), and `rstDone` is log 4. -/
def Obligations.OnlyTheirOperationsChangeEachPart : Prop :=
  ∀ (i : Instr) (s s' : State), exec i s = .next s' →
    (s'.buf ≠ s.buf → i ∈ [Instr.rst, .fDrop, .fEmit] ∨ (∃ b, i = .feedb b) ∨ ∃ bs, i = .feed bs) ∧
    (s'.frameOut ≠ s.frameOut → i = .fEmit ∨ (∃ b, i = .feedb b) ∨ ∃ bs, i = .feed bs) ∧
    (s'.readingsOut ≠ s.readingsOut → i = .fEmit ∨ (∃ b, i = .feedb b) ∨ (∃ bs, i = .feed bs) ∨ ∃ f, i = .decode f) ∧
    (s'.encResult ≠ s.encResult → ∃ c, i = .encode c) ∧
    (s'.valueOut ≠ s.valueOut → i ∉ [Instr.rst, .fIdle, .fDrop, .fWait, .fEmit] ∧ (∀ b, i ≠ .feedb b) ∧
      (∀ bs, i ≠ .feed bs) ∧ (∀ f, i ≠ .decode f) ∧ ∀ c, i ≠ .encode c) ∧
    (s'.rstDone ≠ s.rstDone → i = .rst) ∧ s.valueOut <+: s'.valueOut ∧ s.frameOut <+: s'.frameOut ∧ s.readingsOut <+: s'.readingsOut ∧ s.encResult <+: s'.encResult ∧
    s'.linkOpen = s.linkOpen ∧ s'.input = s.input

/-- 10_state.md R26: no operation reads `link_open`: changing it changes no outcome and nothing else of the next
state. -/
def Obligations.LinkOpenHasNoEffect : Prop :=
  ∀ (i : Instr) (s : State) (v : Bool),
    (∀ t, exec i s = .next t → exec i { s with linkOpen := v } = .next { t with linkOpen := v }) ∧
    (∀ r, exec i s = .refused r → exec i { s with linkOpen := v } = .refused r)

/-- 20_memory.md R52: an ENCODE before or after an RX transaction gives the same results for both. -/
def Obligations.EncodeAndRxCommute : Prop :=
  ∀ (s : State) (c : EncCmd) (r : Instr), s.rstDone = true →
    (r = .rst ∨ (∃ b, r = .feedb b) ∨ ∃ bs, r = .feed bs) →
    ∃ s1 s2 s12, exec r s = .next s1 ∧ exec (.encode c) s1 = .next s12 ∧
      exec (.encode c) s = .next s2 ∧ exec r s2 = .next s12

/-! ## The byte form of an operation -/

/-- Decoding the bytes of a well-formed operation gives it back, with every operand (the model's byte form, log 1). -/
def Obligations.DecodeReadsBackEncode : Prop :=
  ∀ (i : Instr), i.wellFormed = true → ∀ rest, decode (encode i ++ rest) = .ok (i, rest)

/-- Bytes that decode are the bytes of what they decode to, so each byte form has one meaning (log 1). -/
def Obligations.EncodeWritesBackDecode : Prop :=
  ∀ (bs : List Byte) (i : Instr) (rest : List Byte), decode bs = .ok (i, rest) → encode i ++ rest = bs

/-- A few words written out by hand: the framer's head test (30_encoding.md R67), and operations in the model's byte
form (log 1). -/
def Obligations.SampleWordsDecode : Prop :=
  decodeHead [0xFF, 0xFE] = .fWait ∧ decodeHead [0xFE, 0xFF] = .fDrop ∧ decodeHead [0xFF] = .fIdle ∧
  decodeHead (0xFF :: 0xFE :: List.replicate 63 0x00) = .fEmit ∧
  decode [0x01, 0xAB] = .ok (.feedb 0xAB, []) ∧
  decode [0x02, 0x02, 0x12, 0x34, 0x00] = .ok (.feed [0x12, 0x34], [0x00]) ∧
  decode [0x24, 0x90, 0x01] = .ok (.u16Unpack 0x90 0x01, []) ∧
  decode [0x2D, 0x01, 0x01, 0x01] = .ok (.sfPack (-1 / 2), []) ∧
  decode [0x32] = .error .noSuchOperation

/-! ## The TelemetryDecoder

The statements of this section assume of a frame its length only. The rules give a result for 65 bytes that do not
start `FF FE` too, but the source is silent on them and 42_telemetry_decoder.md R151 (93_implementation_defined.md U6)
advises the marker pair as a premise. Leaving that premise out is the model's choice (DESIGN CHOICE, log 23). -/

/-- 42_telemetry_decoder.md R150: DECODE delivers one triple, whose fields are what the twenty extractions of the same
frame give; nothing else changes. That the triple of a DECODE alone goes to `readings_out` is log 8, and that an
extraction's result goes to `valueOut` is log 7; that the 65 bytes need not start with the marker pair is log 23. -/
def Obligations.DecodeAssemblesTheExtractions : Prop :=
  ∀ (s : State) (f : List Byte), f.length = 65 → ∃ r : Readings,
    exec (.decode f) s = .next { s with readingsOut := s.readingsOut ++ [r] } ∧
    exec (.xM1 f) s = .next (s.emitValue (.u16 r.device.motor1)) ∧
    exec (.xM2 f) s = .next (s.emitValue (.u16 r.device.motor2)) ∧
    exec (.xCo2 f) s = .next (s.emitValue (.u16 r.sensor.co2)) ∧
    exec (.xCh2o f) s = .next (s.emitValue (.rawU16 r.sensor.ch2oRaw r.sensor.ch2o)) ∧
    exec (.xTvoc f) s = .next (s.emitValue (.rawU16 r.sensor.tvocRaw r.sensor.tvoc)) ∧
    exec (.xPm25 f) s = .next (s.emitValue (.u16 r.sensor.pm25)) ∧
    exec (.xPm10 f) s = .next (s.emitValue (.u16 r.sensor.pm10)) ∧
    exec (.xAirT f) s = .next (s.emitValue (.pair r.sensor.airTempHi r.sensor.airTempLo r.sensor.airTemp)) ∧
    exec (.xAirH f) s = .next (s.emitValue (.pair r.sensor.airHumHi r.sensor.airHumLo r.sensor.airHum)) ∧
    exec (.xTurb f) s = .next (s.emitValue (.u16 r.sensor.turbidity)) ∧
    exec (.xPh f) s = .next (s.emitValue (.rawU16 r.sensor.phRaw r.sensor.ph)) ∧
    exec (.xTds f) s = .next (s.emitValue (.u16 r.sensor.tds)) ∧
    exec (.xWatT f) s = .next (s.emitValue (.pair r.sensor.waterTempHi r.sensor.waterTempLo r.sensor.waterTemp)) ∧
    exec (.xWlvl f) s = .next (s.emitValue (.rawInt r.sensor.waterLevelRaw r.sensor.waterLevel)) ∧
    exec (.xLat f) s = .next (s.emitValue (.coord r.vessel.latInt r.vessel.latFrac r.vessel.latitude)) ∧
    exec (.xLon f) s = .next (s.emitValue (.coord r.vessel.lonInt r.vessel.lonFrac r.vessel.longitude)) ∧
    exec (.xHdg f) s = .next (s.emitValue (.signedPair r.vessel.hdgInt r.vessel.hdgFrac r.vessel.heading)) ∧
    exec (.xSpd f) s = .next (s.emitValue (.pair r.vessel.spdInt r.vessel.spdFrac r.vessel.speed)) ∧
    exec (.xBat f) s = .next (s.emitValue (.u16 r.device.battery)) ∧
    exec (.xMode f) s = .next (s.emitValue (.u8 r.device.mode))

/-- 42_telemetry_decoder.md R153, R154, R155, R158, R159, R162, R164, R171: the unscaled 16-bit fields, little-endian,
not clamped. -/
def Obligations.UnsignedFieldsAreLittleEndian : Prop :=
  ∀ (s : State) (f : List Byte), f.length = 65 → ∀ p ∈ [(Instr.xM1 f, 2), (.xM2 f, 4), (.xCo2 f, 6), (.xPm25 f, 12),
      (.xPm10 f, 14), (.xTurb f, 20), (.xTds f, 24), (.xBat f, 46)],
    ∃ v : BitVec 16, exec p.1 s = .next { s with valueOut := s.valueOut ++ [.u16 v] } ∧
      v.toNat = (byteAt f p.2).toNat + 256 * (byteAt f (p.2 + 1)).toNat

/-- 42_telemetry_decoder.md R156, R157, R163, R166: the scaled 16-bit fields, raw and exact; the water level is
signed. -/
def Obligations.ScaledFieldsAreExact : Prop :=
  ∀ (s : State) (f : List Byte), f.length = 65 →
    (∃ v : BitVec 16, v.toNat = (byteAt f 8).toNat + 256 * (byteAt f 9).toNat ∧
      exec (.xCh2o f) s = .next { s with valueOut := s.valueOut ++ [.rawU16 v (v.toNat * 1228 / 1000000)] }) ∧
    (∃ v : BitVec 16, v.toNat = (byteAt f 10).toNat + 256 * (byteAt f 11).toNat ∧
      exec (.xTvoc f) s = .next { s with valueOut := s.valueOut ++ [.rawU16 v (v.toNat * 375 / 100000)] }) ∧
    (∃ v : BitVec 16, v.toNat = (byteAt f 22).toNat + 256 * (byteAt f 23).toNat ∧
      exec (.xPh f) s = .next { s with valueOut := s.valueOut ++ [.rawU16 v (v.toNat / 100)] }) ∧
    (∃ v : Int, (let n := (byteAt f 28).toNat + 256 * (byteAt f 29).toNat; v = if n < 32768 then (n : Int) else n - 65536) ∧
      exec (.xWlvl f) s = .next { s with valueOut := s.valueOut ++ [.rawInt v (v / 1000)] })

/-- 42_telemetry_decoder.md R160, R161, R165: the high/low fields, both bytes unsigned, integer byte first. -/
def Obligations.HighLowFields : Prop :=
  ∀ (s : State) (f : List Byte), f.length = 65 →
    ∀ p ∈ [(Instr.xAirT f, 16), (.xAirH f, 18), (.xWatT f, 26)],
      exec p.1 s = .next { s with valueOut := s.valueOut ++
        [.pair (byteAt f p.2) (byteAt f (p.2 + 1)) ((byteAt f p.2).toNat + (byteAt f (p.2 + 1)).toNat / 100)] }

/-- 42_telemetry_decoder.md R167, R168: a coordinate is the signed byte plus the float32 behind it, no sign applied, no
range checked; the value is `SF.UNPACK`'s of the same five bytes. -/
def Obligations.CoordinateFields : Prop :=
  ∀ (s : State) (f : List Byte), f.length = 65 →
    ∀ p ∈ [(Instr.xLat f, 32), (.xLon f, 37)], ∃ (i : Int) (w : BitVec 32) (x : XReal),
      exec p.1 s = .next { s with valueOut := s.valueOut ++ [.coord i w x] } ∧
      (i = if (byteAt f p.2).toNat < 128 then ((byteAt f p.2).toNat : Int) else (byteAt f p.2).toNat - 256) ∧
      w.toNat = (byteAt f (p.2 + 1)).toNat + 256 * (byteAt f (p.2 + 2)).toNat + 65536 * (byteAt f (p.2 + 3)).toNat +
        16777216 * (byteAt f (p.2 + 4)).toNat ∧
      exec (.sfUnpack (byteAt f p.2) (byteAt f (p.2 + 1)) (byteAt f (p.2 + 2)) (byteAt f (p.2 + 3)) (byteAt f (p.2 + 4))) s =
        .next { s with valueOut := s.valueOut ++ [.xreal x] }

/-- 42_telemetry_decoder.md R169, R170, R172: the heading re-applies the sign of its integer part, 0 counting as
positive; the speed is unsigned; the mode is the raw byte. -/
def Obligations.HeadingSpeedModeFields : Prop :=
  ∀ (s : State) (f : List Byte), f.length = 65 →
    ((byteAt f 42).toNat < 128 → exec (.xHdg f) s = .next { s with valueOut := s.valueOut ++
      [.signedPair (byteAt f 42).toNat (byteAt f 43) ((byteAt f 42).toNat + (byteAt f 43).toNat / 100)] }) ∧
    (128 ≤ (byteAt f 42).toNat → exec (.xHdg f) s = .next { s with valueOut := s.valueOut ++
      [.signedPair ((byteAt f 42).toNat - 256) (byteAt f 43)
        (((byteAt f 42).toNat - 256 : Q) - (byteAt f 43).toNat / 100)] }) ∧
    exec (.xSpd f) s = .next { s with valueOut := s.valueOut ++
      [.pair (byteAt f 44) (byteAt f 45) ((byteAt f 44).toNat + (byteAt f 45).toNat / 100)] } ∧
    exec (.xMode f) s = .next { s with valueOut := s.valueOut ++ [.u8 (byteAt f 48)] }

/-- 42_telemetry_decoder.md R174: two frames that agree on offsets 2 to 29 and 32 to 48 decode to equal triples. -/
def Obligations.DecodeReadsOnlyItsFields : Prop :=
  ∀ (s : State) (f g : List Byte), f.length = 65 → g.length = 65 →
    (∀ k, (2 ≤ k ∧ k ≤ 29) ∨ (32 ≤ k ∧ k ≤ 48) → byteAt f k = byteAt g k) →
    Completes (.decode f) s ∧ exec (.decode f) s = exec (.decode g) s

/-- 42_telemetry_decoder.md R151, 93_implementation_defined.md U6: DECODE of a sequence that is not 65 bytes is
refused; that an extraction is too is read from it (log 12). -/
def Obligations.WrongFrameLengthIsRefused : Prop :=
  ∀ (s : State) (f : List Byte), f.length ≠ 65 →
    ∀ i ∈ [Instr.decode f, .xM1 f, .xM2 f, .xCo2 f, .xCh2o f, .xTvoc f, .xPm25 f, .xPm10 f, .xAirT f, .xAirH f, .xTurb f,
      .xPh f, .xTds f, .xWatT f, .xWlvl f, .xLat f, .xLon f, .xHdg f, .xSpd f, .xBat f, .xMode f],
    exec i s = .refused .frameLength

/-! ## The CommandEncoder -/

/-- 43_command_encoder.md R192, R193, R194, R195: the error reported is the first that applies; nothing else happens. -/
def Obligations.EncodeErrorsInOrder : Prop :=
  ∀ (s : State) (c : EncCmd),
    let homeOk := c.home.valid = true ∧ -90 ≤ c.home.lat ∧ c.home.lat ≤ 90 ∧ -180 ≤ c.home.lon ∧ c.home.lon ≤ 180
    (¬ homeOk → exec (.encode c) s = .next { s with encResult := s.encResult ++ [.err .homeInvalid] }) ∧
    (homeOk → c.ts.valid = false →
      exec (.encode c) s = .next { s with encResult := s.encResult ++ [.err .timestampInvalid] }) ∧
    (homeOk → c.ts.valid = true → c.mode = 3 →
      exec (.encode c) s = .next { s with encResult := s.encResult ++ [.err .badMode] })

/-- 60_exceptions.md R230: the code of a result is 0 for Ok, and 1, 2, 3 for the three kinds; every ENCODE gives
exactly one result. -/
def Obligations.EncodeResultCodes : Prop :=
  ∀ (s : State) (c : EncCmd), ∃ r, exec (.encode c) s = .next { s with encResult := s.encResult ++ [r] } ∧
    (r.code = 0 ↔ ∃ bytes n rej tr, r = .ok bytes n rej tr) ∧ (r.code = 1 ↔ r = .err .homeInvalid) ∧
    (r.code = 2 ↔ r = .err .timestampInvalid) ∧ (r.code = 3 ↔ r = .err .badMode) ∧ r.code ≤ 3

/-- 43_command_encoder.md R190: with no failing check, the result is the frame put together from its segments, the
accepted waypoints among the first 50 in list order, with their number, the rejected positions and the number never
examined. -/
def Obligations.EncodeBuildsTheFrame : Prop :=
  ∀ (s : State) (c : EncCmd), usable c.home = true → c.ts.valid = true → c.mode ≠ 3 →
    let acc := (c.wps.take 50).filter usable
    exec (.encode c) s = .next { s with encResult := s.encResult ++ [.ok
      ([0xFF, 0xFE] ++ i64Pack c.ts.secs.toInt ++ sfPack c.home.lon ++ sfPack c.home.lat ++
        acc.flatMap (fun w => sfPack w.lon ++ sfPack w.lat) ++
        bool8Pack c.pumpAuto ++ bool8Pack c.pumpActive ++ u8Pack c.mode.toNat ++
        u16Pack (clampMotor c.motor1.toNat) ++ u16Pack (clampMotor c.motor2.toNat) ++ List.replicate 14 0)
      acc.length
      (((c.wps.take 50).zipIdx 1).filterMap fun x => if usable x.1 then none else some x.2)
      (c.wps.length - 50)] }

/-- 30_encoding.md R76, R81, 20_memory.md R47: the segments of a frame with `n` accepted waypoints, by offset and width,
and its length `41 + 10 n`; `n` counts the usable ones among the first 50 entries (43_command_encoder.md R197, R199;
decision D20) and the motors are clamped (R203, R206; decision D18). -/
def Obligations.SendFrameMap : Prop :=
  ∀ (s : State) (c : EncCmd), usable c.home = true → c.ts.valid = true → c.mode ≠ 3 →
    ∃ t n rej tr, exec (.encode c) s = .next { s with encResult := s.encResult ++ [.ok t n rej tr] } ∧
      n = ((c.wps.take 50).filter usable).length ∧ n ≤ 50 ∧ t.length = 41 + 10 * n ∧
      memRead t 0 1 = [0xFF] ∧ memRead t 1 1 = [0xFE] ∧ memRead t 2 8 = i64Pack c.ts.secs.toInt ∧
      memRead t 10 5 = sfPack c.home.lon ∧ memRead t 15 5 = sfPack c.home.lat ∧
      (∀ k w, ((c.wps.take 50).filter usable)[k]? = some w →
        memRead t (10 + 10 * (k + 1)) 5 = sfPack w.lon ∧ memRead t (15 + 10 * (k + 1)) 5 = sfPack w.lat) ∧
      memRead t (20 + 10 * n) 1 = bool8Pack c.pumpAuto ∧ memRead t (21 + 10 * n) 1 = bool8Pack c.pumpActive ∧
      memRead t (22 + 10 * n) 1 = u8Pack c.mode.toNat ∧
      memRead t (23 + 10 * n) 2 = u16Pack (clampMotor c.motor1.toNat) ∧
      memRead t (25 + 10 * n) 2 = u16Pack (clampMotor c.motor2.toNat) ∧
      memRead t (27 + 10 * n) 14 = List.replicate 14 0

/-- 43_command_encoder.md R199, R210: entries beyond the 50th are never looked at and are only counted; with at least 50
entries, the first 50 all acceptable, the frame holds exactly 50 waypoints in 541 bytes. -/
def Obligations.WaypointCap : Prop :=
  ∀ (s : State) (c : EncCmd), usable c.home = true → c.ts.valid = true → c.mode ≠ 3 → 50 ≤ c.wps.length →
    ∃ t n rej, exec (.encode c) s =
        .next { s with encResult := s.encResult ++ [.ok t n rej (c.wps.length - 50)] } ∧
      exec (.encode { c with wps := c.wps.take 50 }) s =
        .next { s with encResult := s.encResult ++ [.ok t n rej 0] } ∧
      ((∀ w ∈ c.wps.take 50, usable w = true) → n = 50 ∧ rej = [] ∧ t.length = 541)

/-- 43_command_encoder.md R206: the motor fields of every send frame lie in 675..1353, and a request inside is sent as
it is. -/
def Obligations.SentMotorsAreClamped : Prop :=
  ∀ (s : State) (c : EncCmd) (t : List Byte) (n : Nat) (rej : List Nat) (tr : Nat),
    exec (.encode c) s = .next { s with encResult := s.encResult ++ [.ok t n rej tr] } →
    (let m := u16Unpack (byteAt t (23 + 10 * n)) (byteAt t (24 + 10 * n))
     675 ≤ m.toNat ∧ m.toNat ≤ 1353 ∧ (675 ≤ c.motor1.toNat → c.motor1.toNat ≤ 1353 → m = c.motor1)) ∧
    (let m := u16Unpack (byteAt t (25 + 10 * n)) (byteAt t (26 + 10 * n))
     675 ≤ m.toNat ∧ m.toNat ≤ 1353 ∧ (675 ≤ c.motor2.toNat → c.motor2.toNat ≤ 1353 → m = c.motor2))

/-- 43_command_encoder.md R208, 10_state.md R32: ENCODE is a function of its inputs: its result is the same from every
state, and nothing but `enc_result` changes. -/
def Obligations.EncodeIsStateless : Prop :=
  ∀ c : EncCmd, ∃ r : EncodeResult, ∀ s : State,
    exec (.encode c) s = .next { s with encResult := s.encResult ++ [r] }

/-- 10_state.md R30: the coordinates of an invalid point and the seconds of an invalid timestamp are not read. -/
def Obligations.InvalidInputsAreNotRead : Prop :=
  ∀ (s : State) (c d : EncCmd),
    (c.home = d.home ∨ (c.home.valid = false ∧ d.home.valid = false)) →
    (c.ts = d.ts ∨ (c.ts.valid = false ∧ d.ts.valid = false)) →
    List.Forall₂ (fun v w : PointIn => v = w ∨ (v.valid = false ∧ w.valid = false)) c.wps d.wps →
    c.pumpAuto = d.pumpAuto → c.pumpActive = d.pumpActive → c.mode = d.mode → c.motor1 = d.motor1 →
    c.motor2 = d.motor2 →
    Completes (.encode c) s ∧ exec (.encode c) s = exec (.encode d) s

/-- 43_command_encoder.md R209: the source's scenario, with the timestamp taken as UTC (D38). -/
def Obligations.SourceScenarioFrame : Prop :=
  ∀ s : State,
    exec (.encode { home := { valid := true, lat := 3123 / 100, lon := 12147 / 100 }, ts := { valid := true, secs := 1704067200 },
                    wps := [], pumpAuto := false, pumpActive := false, mode := 0, motor1 := 1013, motor2 := 1013 }) s =
      .next { s with encResult := s.encResult ++ [.ok
        [0xFF, 0xFE, 0x80, 0x00, 0x92, 0x65, 0x00, 0x00, 0x00, 0x00, 0x79, 0xD7, 0xA3, 0xF0, 0x3E,
         0x1F, 0x1F, 0x85, 0x6B, 0x3E, 0x00, 0x00, 0x00, 0xF5, 0x03, 0xF5, 0x03,
         0, 0, 0, 0, 0, 0, 0, 0, 0, 0, 0, 0, 0, 0] 0 [] 0] }

/-- 43_command_encoder.md R200, R201, R202, R203, R204: each segment writer replaces the bytes of its segment and no
other byte of the frame under construction (`a` before it, `z` after it). That it runs on arrays and at bases ENCODE
never presents is the model's choice (log 10). -/
def Obligations.SegmentWritersReplaceTheirBytes : Prop :=
  ∀ (s : State) (a old z : List Byte),
    (a = [] → old.length = 2 →
      exec (.eHdr (a ++ old ++ z)) s = .next { s with valueOut := s.valueOut ++ [.bytes (a ++ [0xFF, 0xFE] ++ z)] }) ∧
    (∀ secs, a.length = 2 → old.length = 8 →
      exec (.eTs (a ++ old ++ z) secs) s =
        .next { s with valueOut := s.valueOut ++ [.bytes (a ++ i64Pack secs.toInt ++ z)] }) ∧
    (∀ p lat lon, a.length = p → old.length = 10 →
      exec (.ePoint (a ++ old ++ z) p lat lon) s =
        .next { s with valueOut := s.valueOut ++ [.bytes (a ++ (sfPack lon ++ sfPack lat) ++ z)] }) ∧
    (∀ c pa pv mode m1 m2, a.length = c → old.length = 7 →
      exec (.eCtrl (a ++ old ++ z) c pa pv mode m1 m2) s =
        .next { s with valueOut := s.valueOut ++ [.bytes (a ++ (bool8Pack pa ++ bool8Pack pv ++
          [match mode with | .manual => 0x00 | .auto => 0x01 | .positionHold => 0x02] ++
          u16Pack (clampMotor m1.toNat) ++ u16Pack (clampMotor m2.toNat)) ++ z)] }) ∧
    (∀ o, a.length = o → old.length = 14 →
      exec (.eTail (a ++ old ++ z) o) s =
        .next { s with valueOut := s.valueOut ++ [.bytes (a ++ List.replicate 14 0 ++ z)] })

/-- 00_scope.md R9: `MemWrite` requires `off + n <= len(a)`; a segment writer that does not fit is refused (log 10). -/
def Obligations.WriteOutsideFrameIsRefused : Prop :=
  ∀ (s : State) (t : List Byte),
    (t.length < 2 → exec (.eHdr t) s = .refused .outsideFrame) ∧
    (t.length < 10 → ∀ secs, exec (.eTs t secs) s = .refused .outsideFrame) ∧
    (∀ p lat lon, t.length < p + 10 → exec (.ePoint t p lat lon) s = .refused .outsideFrame) ∧
    (∀ c pa pv m m1 m2, t.length < c + 7 → exec (.eCtrl t c pa pv m m1 m2) s = .refused .outsideFrame) ∧
    (∀ o, t.length < o + 14 → exec (.eTail t o) s = .refused .outsideFrame)

/-! ## The NumericCodec -/

/-- 40_numeric_codec.md R90, R91, R110: the single bytes. -/
def Obligations.SingleBytePrimitives : Prop :=
  ∀ s : State,
    (∀ b, exec (.u8Unpack b) s = .next { s with valueOut := s.valueOut ++ [.u8 b] }) ∧
    (∀ v : Int, 0 ≤ v → v ≤ 255 → ∃ b : Byte, (b.toNat : Int) = v ∧
      exec (.u8Pack v) s = .next { s with valueOut := s.valueOut ++ [.bytes [b]] }) ∧
    exec (.bool8Pack false) s = .next { s with valueOut := s.valueOut ++ [.bytes [0x00]] } ∧
    exec (.bool8Pack true) s = .next { s with valueOut := s.valueOut ++ [.bytes [0x01]] }

/-- 40_numeric_codec.md R92, R93: 16-bit words are little-endian, and packing and unpacking are inverse both ways. -/
def Obligations.U16RoundTrips : Prop :=
  ∀ s : State,
    (∀ b0 b1 : Byte, ∃ v : BitVec 16, v.toNat = b0.toNat + 256 * b1.toNat ∧
      exec (.u16Unpack b0 b1) s = .next { s with valueOut := s.valueOut ++ [.u16 v] } ∧
      exec (.u16Pack v.toNat) s = .next { s with valueOut := s.valueOut ++ [.bytes [b0, b1]] }) ∧
    (∀ v : Int, 0 ≤ v → v ≤ 65535 → ∃ b0 b1 : Byte, (b0.toNat : Int) = v % 256 ∧ (b1.toNat : Int) = v / 256 ∧
      exec (.u16Pack v) s = .next { s with valueOut := s.valueOut ++ [.bytes [b0, b1]] } ∧
      exec (.u16Unpack b0 b1) s = .next { s with valueOut := s.valueOut ++ [.u16 (BitVec.ofNat 16 v.toNat)] })

/-- 40_numeric_codec.md R94: `sext_16(b0 + 256 b1)`. -/
def Obligations.I16IsSignExtended : Prop :=
  ∀ (s : State) (b0 b1 : Byte), ∃ v : Int, exec (.i16Unpack b0 b1) s = .next { s with valueOut := s.valueOut ++ [.int v] } ∧
    -32768 ≤ v ∧ v ≤ 32767 ∧ v % 65536 = b0.toNat + 256 * b1.toNat ∧ (v < 0 ↔ 128 ≤ b1.toNat)

/-- 40_numeric_codec.md R96: the eight bytes of `v mod 2^64`, least significant first. -/
def Obligations.I64PacksLittleEndian : Prop :=
  ∀ (s : State) (v : Int), -(2 ^ 63) ≤ v → v ≤ 2 ^ 63 - 1 → ∃ b0 b1 b2 b3 b4 b5 b6 b7 : Byte,
    exec (.i64Pack v) s = .next { s with valueOut := s.valueOut ++ [.bytes [b0, b1, b2, b3, b4, b5, b6, b7]] } ∧
    (b0.toNat + 2 ^ 8 * b1.toNat + 2 ^ 16 * b2.toNat + 2 ^ 24 * b3.toNat + 2 ^ 32 * b4.toNat + 2 ^ 40 * b5.toNat +
      2 ^ 48 * b6.toNat + 2 ^ 56 * b7.toNat : Int) = v % 2 ^ 64

/-- 40_numeric_codec.md R100, R101: the high/low scheme, and its packing where it is defined. -/
def Obligations.HighLowScheme : Prop :=
  ∀ s : State,
    (∀ h l : Byte, exec (.hlUnpack h l) s = .next { s with valueOut := s.valueOut ++ [.q (h.toNat + l.toNat / 100)] }) ∧
    (∀ v : Q, 0 ≤ v → v ≤ 25599 / 100 → (∃ n : Int, 100 * v = n) → ∃ h l : Byte,
      exec (.hlPack v) s = .next { s with valueOut := s.valueOut ++ [.bytes [h, l]] } ∧
      (h.toNat : Int) = v.floor ∧ l.toNat ≤ 99 ∧ (h.toNat : Q) + l.toNat / 100 = v)

/-- 40_numeric_codec.md R104: the value of a binary32 pattern, by its sign, exponent and fraction. -/
def Obligations.F32UnpackByFields : Prop :=
  ∀ (s : State) (b0 b1 b2 b3 : Byte), ∃ x : XReal,
    exec (.f32Unpack b0 b1 b2 b3) s = .next { s with valueOut := s.valueOut ++ [.xreal x] } ∧
    let w : Nat := b0.toNat + 256 * b1.toNat + 65536 * b2.toNat + 16777216 * b3.toNat
    let e : Nat := w / 2 ^ 23 % 256
    let m : Nat := w % 2 ^ 23
    let sign : Q := if w / 2 ^ 31 = 1 then -1 else 1
    (e = 255 → m ≠ 0 → x = .nan) ∧
    (e = 255 → m = 0 → x = if w / 2 ^ 31 = 1 then .negInf else .posInf) ∧
    (e = 0 → x = .fin (sign * m / 2 ^ 149)) ∧
    (e ≠ 0 → e ≠ 255 → x = .fin (sign * (2 ^ 23 + m) * 2 ^ e / 2 ^ 150))

/-- 40_numeric_codec.md R103: for a result in the normal range, the relative error of the packed value is at most
`2^-24`, and no infinity or NaN is produced anywhere in the domain. Round to nearest, ties to even, is log 22. -/
def Obligations.F32PackErrorBound : Prop :=
  ∀ (s : State) (q : Q), |q| < 2 ^ 128 - 2 ^ 103 → ∃ (b0 b1 b2 b3 : Byte) (q' : Q),
    exec (.f32Pack q) s = .next { s with valueOut := s.valueOut ++ [.bytes [b0, b1, b2, b3]] } ∧
    exec (.f32Unpack b0 b1 b2 b3) s = .next { s with valueOut := s.valueOut ++ [.xreal (.fin q')] } ∧
    |q' - q| ≤ max (|q| / 2 ^ 24) (1 / 2 ^ 150) ∧ (1 / 2 ^ 126 ≤ |q| → |q' - q| ≤ |q| / 2 ^ 24)

/-- 40_numeric_codec.md R103: the result is the binary32 nearest to the operand: no pattern of a finite value is
nearer, and where another value is as near the result's fraction field is even; bit 31 is the operand's sign. -/
def Obligations.F32PackIsNearestEven : Prop :=
  ∀ (s : State) (q : Q), |q| < 2 ^ 128 - 2 ^ 103 → ∃ (b0 b1 b2 b3 : Byte) (q' : Q),
    exec (.f32Pack q) s = .next { s with valueOut := s.valueOut ++ [.bytes [b0, b1, b2, b3]] } ∧
    f32Unpack b0 b1 b2 b3 = .fin q' ∧ (128 ≤ b3.toNat ↔ q < 0) ∧
    ∀ (c0 c1 c2 c3 : Byte) (x : Q), f32Unpack c0 c1 c2 c3 = .fin x →
      |q' - q| ≤ |x - q| ∧ (|x - q| = |q' - q| → x ≠ q' → b0.toNat % 2 = 0)

/-- 40_numeric_codec.md R106: the signed byte plus the float32, with no sign handling; infinities and NaN pass
through. -/
def Obligations.CoordinateUnpackIsPlainSum : Prop :=
  ∀ (s : State) (i b0 b1 b2 b3 : Byte), ∃ x y : XReal,
    exec (.sfUnpack i b0 b1 b2 b3) s = .next { s with valueOut := s.valueOut ++ [.xreal x] } ∧
    exec (.f32Unpack b0 b1 b2 b3) s = .next { s with valueOut := s.valueOut ++ [.xreal y] } ∧
    (∀ q, y = .fin q → x = .fin ((if i.toNat < 128 then (i.toNat : Q) else i.toNat - 256) + q)) ∧
    (y = .posInf → x = .posInf) ∧ (y = .negInf → x = .negInf) ∧ (y = .nan → x = .nan)

/-- 40_numeric_codec.md R107: the integer part is taken toward zero and sent modulo 256, the exact rest, of magnitude
below 1 and of the operand's sign, goes through `F32LE.PACK`. -/
def Obligations.CoordinatePackSplitsTowardZero : Prop :=
  ∀ (s : State) (v : Q), ∃ (n : Int) (i b0 b1 b2 b3 : Byte),
    |v - n| < 1 ∧ (0 ≤ v → 0 ≤ v - n ∧ 0 ≤ n) ∧ (v ≤ 0 → v - n ≤ 0 ∧ n ≤ 0) ∧ (i.toNat : Int) = n % 256 ∧
    exec (.sfPack v) s = .next { s with valueOut := s.valueOut ++ [.bytes [i, b0, b1, b2, b3]] } ∧
    exec (.f32Pack (v - n)) s = .next { s with valueOut := s.valueOut ++ [.bytes [b0, b1, b2, b3]] }

/-- 40_numeric_codec.md R112: for `-128 < v < 128` a coordinate packed and unpacked is within `2^-25`. -/
def Obligations.CoordinateRoundTrip : Prop :=
  ∀ (s : State) (v : Q), -128 < v → v < 128 → ∃ (i b0 b1 b2 b3 : Byte) (v' : Q),
    exec (.sfPack v) s = .next { s with valueOut := s.valueOut ++ [.bytes [i, b0, b1, b2, b3]] } ∧
    exec (.sfUnpack i b0 b1 b2 b3) s = .next { s with valueOut := s.valueOut ++ [.xreal (.fin v')] } ∧
    |v' - v| ≤ 1 / 2 ^ 25

/-- 40_numeric_codec.md R108, R109: the heading's scheme re-applies the sign of the integer part, 0 counting as
positive; the speed's scheme is unsigned. -/
def Obligations.ByteFractionSchemes : Prop :=
  ∀ (s : State) (i f : Byte),
    (i.toNat < 128 → exec (.sbUnpack i f) s = .next { s with valueOut := s.valueOut ++ [.q (i.toNat + f.toNat / 100)] }) ∧
    (128 ≤ i.toNat → exec (.sbUnpack i f) s =
      .next { s with valueOut := s.valueOut ++ [.q (i.toNat - 256 - f.toNat / 100)] }) ∧
    exec (.ubUnpack i f) s = .next { s with valueOut := s.valueOut ++ [.q (i.toNat + f.toNat / 100)] }

/-- 40_numeric_codec.md R111: the clamp to 675..1353, idempotent. -/
def Obligations.MotorClamp : Prop :=
  ∀ (s : State) (v : Int), 0 ≤ v → v ≤ 65535 → ∃ w : BitVec 16,
    exec (.clampMotor v) s = .next { s with valueOut := s.valueOut ++ [.u16 w] } ∧
    (w.toNat : Int) = (if v < 675 then 675 else if v > 1353 then 1353 else v) ∧
    exec (.clampMotor w.toNat) s = .next { s with valueOut := s.valueOut ++ [.u16 w] }

/-- 40_numeric_codec.md R97, 93_implementation_defined.md U9: a primitive outside its stated domain is refused. -/
def Obligations.OutsideDomainIsRefused : Prop :=
  ∀ s : State,
    (∀ v : Int, v < 0 ∨ 255 < v → exec (.u8Pack v) s = .refused .outsideDomain) ∧
    (∀ v : Int, v < 0 ∨ 65535 < v → exec (.u16Pack v) s = .refused .outsideDomain) ∧
    (∀ v : Int, v < 0 ∨ 65535 < v → exec (.clampMotor v) s = .refused .outsideDomain) ∧
    (∀ v : Int, v < -(2 ^ 63) ∨ 2 ^ 63 ≤ v → exec (.i64Pack v) s = .refused .outsideDomain) ∧
    (∀ v : Q, v < 0 ∨ 25599 / 100 < v ∨ (¬ ∃ n : Int, 100 * v = n) → exec (.hlPack v) s = .refused .outsideDomain) ∧
    (∀ q : Q, 2 ^ 128 - 2 ^ 103 ≤ |q| → exec (.f32Pack q) s = .refused .outsideDomain)
end

