-- ==== Sys2Proof/Config.lean ====
section
/-! DEFINITION. What the spec leaves to the environment as an open parameter (00_scope.md R6).
The fixed sizes and constants of the protocol stand in Machine/Params.lean. -/

namespace Sys2Proof

/-- `ROUND_OUT`: how a consumer rounds an exact decoded value into its own number format (00_scope.md R6,
42_telemetry_decoder.md R152, 93_implementation_defined.md U11).
No rule of the codec applies it: every output of the codec is exact.
It is the one open parameter, so it has no value here (log 18).
DESIGN CHOICE: the type `Q → Q` is the model's. The spec leaves the consumer's number format open and lets the exact
value of a coordinate be an `XReal` (40_numeric_codec.md R105, R152); this function speaks of finite values and of a
format whose numbers are rationals only, so the infinities and NaN of a coordinate are outside it (log 18). -/
opaque Config.roundOut : Q → Q

end Sys2Proof
end

