-- ==== Sys2Proof/Laws/Codec.lean ====
section
/-! SUPPORT. Each operand reader of the model's byte form reads back what its writer wrote, and leaves the rest. -/

namespace Sys2Proof

/-- The reader `p` reads back `bs` as `a`, whatever follows. -/
def Reads {α : Type} (p : Parser α) (bs : List Byte) (a : α) : Prop := ∀ rest, p (bs ++ rest) = .ok (a, rest)

namespace Reads

theorem done {α : Type} (a : α) : Reads (Parser.done a) [] a := fun _ => rfl

theorem andThen {α β : Type} {p : Parser α} {k : α → Parser β} {as bs : List Byte} {a : α} {b : β}
    (hp : Reads p as a) (hk : Reads (k a) bs b) : Reads (p.andThen k) (as ++ bs) b := by
  intro rest
  have h1 := hp (bs ++ rest)
  simp [Parser.andThen, List.append_assoc, h1, hk rest]

/-- The last operand of an operation. -/
theorem last {α β : Type} {p : Parser α} {as : List Byte} {a : α} {g : α → β}
    (hp : Reads p as a) : Reads (p.andThen fun x => Parser.done (g x)) as (g a) := by
  have h := andThen (k := fun x => Parser.done (g x)) hp (done (g a))
  rwa [List.append_nil] at h

end Reads

theorem reads_byte (b : Byte) : Reads parseByte [b] b := fun _ => rfl

theorem reads_bytes (n : Nat) (bs : List Byte) (h : bs.length = n) : Reads (parseBytes n) bs bs := by
  intro rest
  subst h
  simp [parseBytes]

theorem encodeNatFuel_ne_nil (k n : Nat) : encodeNatFuel k n ≠ [] := by
  cases k with
  | zero => simp [encodeNatFuel]
  | succ k => simp only [encodeNatFuel]; split <;> simp

theorem reads_natFuel (k n : Nat) (h : n ≤ k) : Reads parseNat (encodeNatFuel k n) n := by
  induction k generalizing n with
  | zero =>
    intro rest
    obtain rfl : n = 0 := by omega
    rfl
  | succ k ih =>
    intro rest
    simp only [encodeNatFuel]
    split
    · next hn =>
      have : n % 256 = n := by omega
      simp [parseNat, BitVec.toNat_ofNat, this, hn]
    · next hn =>
      have hb : (128 + n % 128) % 256 = 128 + n % 128 := by omega
      have hrec := ih (n / 128) (by omega) rest
      have hne : n / 128 ≠ 0 := by omega
      simp [parseNat, BitVec.toNat_ofNat, hb, hrec, hne]
      omega

theorem reads_nat (n : Nat) : Reads parseNat (encodeNat n) n := reads_natFuel n n (Nat.le_refl n)

theorem reads_bool (v : Bool) : Reads parseBool (encodeBool v) v := by
  intro rest
  cases v <;> rfl

theorem reads_int (v : Int) : Reads parseInt (encodeInt v) v := by
  refine Reads.andThen (reads_bool _) (fun rest => ?_)
  simp only [Parser.andThen, reads_nat v.natAbs rest]
  by_cases h : v < 0
  · have hne : v.natAbs ≠ 0 := by omega
    have hv : -(v.natAbs : Int) = v := by omega
    simp only [h, hne, decide_true, if_true, if_false, Parser.done, hv]
  · simp [h, Parser.done]
    omega

theorem reads_q (q : Q) : Reads parseQ (encodeQ q) q := by
  refine Reads.andThen (reads_int q.num) (fun rest => ?_)
  have hd : q.den - 1 + 1 = q.den := by have := q.den_pos; omega
  simp only [Parser.andThen, reads_nat (q.den - 1) rest, hd, dif_pos q.reduced, Parser.done]

theorem reads_seq (bs : List Byte) : Reads parseSeq (encodeSeq bs) bs :=
  Reads.andThen (reads_nat bs.length) (reads_bytes _ bs rfl)

theorem reads_u16 (w : BitVec 16) : Reads parseU16 (encodeU16 w) w := by
  intro rest
  have : w.extractLsb' 8 8 ++ w.extractLsb' 0 8 = w := by
    apply BitVec.eq_of_getLsbD_eq
    intro i hi
    simp only [BitVec.getLsbD_append, BitVec.getLsbD_extractLsb']
    by_cases h : i < 8
    · simp [h]
    · have h1 : i - 8 < 8 := by omega
      have h2 : 8 + (i - 8) = i := by omega
      simp [h, h1, h2]
  simp [parseU16, encodeU16, Parser.andThen, parseByte, Parser.done, this]

theorem reads_u64 (w : BitVec 64) : Reads parseU64 (encodeU64 w) w := by
  have hw : w.extractLsb' 48 16 ++ w.extractLsb' 32 16 ++ w.extractLsb' 16 16 ++ w.extractLsb' 0 16 = w := by
    apply BitVec.eq_of_getLsbD_eq
    intro i hi
    simp only [BitVec.getLsbD_append, BitVec.getLsbD_extractLsb']
    by_cases h1 : i < 16
    · simp [h1]
    · by_cases h2 : i - 16 < 16
      · simp [h1, h2, show 16 + (i - 16) = i by omega]
      · by_cases h3 : i - 16 - 16 < 16
        · simp [h1, h2, h3, show 32 + (i - 16 - 16) = i by omega]
        · simp [h1, h2, h3, show i - 16 - 16 - 16 < 16 by omega, show 48 + (i - 16 - 16 - 16) = i by omega]
  refine Reads.andThen (reads_u16 _) (Reads.andThen (reads_u16 _) (Reads.andThen (reads_u16 _) ?_))
  have := Reads.last (g := fun w3 => w3 ++ w.extractLsb' 32 16 ++ w.extractLsb' 16 16 ++ w.extractLsb' 0 16)
    (reads_u16 (w.extractLsb' 48 16))
  rwa [hw] at this

theorem reads_point (p : PointIn) : Reads parsePoint (encodePoint p) p :=
  Reads.andThen (reads_bool _) (Reads.andThen (reads_q _) (Reads.last (g := fun lon => PointIn.mk p.valid p.lat lon)
    (reads_q _)))

theorem reads_points (ps : List PointIn) : Reads (parsePoints ps.length) (encodePoints ps) ps := by
  induction ps with
  | nil => exact Reads.done []
  | cons p ps ih => exact Reads.andThen (reads_point p) (Reads.last (g := fun r => p :: r) ih)

theorem reads_mode2 (m : BitVec 2) : Reads parseMode2 (encodeMode2 m) m := by
  intro rest
  have h : m.toNat < 4 := m.isLt
  have h2 : m.toNat % 256 = m.toNat := by omega
  simp [parseMode2, encodeMode2, Parser.andThen, parseByte, h2, h, Parser.done]

theorem reads_boatMode (m : BoatMode) : Reads parseBoatMode (encodeBoatMode m) m := by
  intro rest
  cases m <;> rfl

theorem reads_cmd (c : EncCmd) : Reads parseCmd (encodeCmd c) c :=
  Reads.andThen (reads_point _) <| Reads.andThen (reads_bool _) <| Reads.andThen (reads_u64 _) <|
  Reads.andThen (reads_nat _) <| Reads.andThen (reads_points _) <| Reads.andThen (reads_bool _) <|
  Reads.andThen (reads_bool _) <| Reads.andThen (reads_mode2 _) <| Reads.andThen (reads_u16 _) <|
  Reads.last (g := fun m2 => EncCmd.mk c.home ⟨c.ts.valid, c.ts.secs⟩ c.wps c.pumpAuto c.pumpActive c.mode c.motor1 m2)
    (reads_u16 c.motor2)

theorem reads_frame (f : List Byte) (h : frameOk f = true) : Reads parseFrame f f :=
  reads_bytes _ f (by simpa [frameOk] using h)

/-- An operation is its selector byte and its operands. -/
theorem reads_operation (sel : Byte) (bs : List Byte) (i : Instr) (h : Reads (parseOperands sel.toNat) bs i) :
    Reads decode (sel :: bs) i := by
  intro rest
  exact h rest

end Sys2Proof
end

