-- ==== Sys2Proof/Laws/CodecBack.lean ====
section
/-! SUPPORT. The other direction: what an operand reader accepts is what its writer writes, so each byte form has one
meaning. -/

namespace Sys2Proof

/-- Whatever `p` reads, `enc` writes back. -/
def Writes {α : Type} (p : Parser α) (enc : α → List Byte) : Prop := ∀ bs a rest, p bs = .ok (a, rest) → enc a ++ rest = bs

/-- A sequence of two readers succeeds where both do. -/
theorem Parser.andThen_ok {α β : Type} {p : Parser α} {k : α → Parser β} {bs rest : List Byte} {b : β} (h : p.andThen k bs = .ok (b, rest)) :
   ∃ a mid, p bs = .ok (a, mid) ∧ k a mid = .ok (b, rest) := by
  unfold Parser.andThen at h
  split at h
  · cases h
  · exact ⟨_, _, by assumption, h⟩

theorem writes_byte : Writes parseByte (fun b => [b]) := by
  rintro (_|⟨b, bs⟩) a rest h <;> cases h; rfl

theorem writes_bytes (n) : Writes (parseBytes n) id := by
  intro bs a rest h
  unfold parseBytes at h; split at h <;> cases h
  simp

/-- Fuel beyond the number changes nothing. -/
theorem encodeNatFuel_eq (k n : Nat) (h : n ≤ k) : encodeNatFuel k n = encodeNat n := by
  unfold encodeNat
  induction k using Nat.strongRecOn generalizing n with
  | ind k ih =>
    match k, n, h with
    | 0, 0, _ => rfl
    | k+1, 0, _ => rfl
    | k+1, n+1, h =>
      simp only [encodeNatFuel]
      split
      · rfl
      · have h1 : (n+1)/128 ≤ n := by omega
        rw [ih k (by omega) _ (by omega), ih n (by omega) _ h1]

theorem writes_nat : Writes parseNat encodeNat := by
  intro bs
  induction bs with
  | nil => intro a rest h; cases h
  | cons b bs ih =>
    intro a rest h
    unfold parseNat at h
    split at h
    · rename_i hb
      cases h
      unfold encodeNat
      cases hn : b.toNat with
      | zero =>
        have : b = 0 := BitVec.eq_of_toNat_eq (by simpa using hn)
        subst this; rfl
      | succ m =>
        simp only [encodeNatFuel]
        rw [if_pos (by omega), ← hn]; simp
    · split at h
      · cases h
      · rename_i n rest' hp
        split at h
        · cases h
        · cases h
          have := ih _ _ hp
          have hb := b.isLt
          have e : b.toNat - 128 + 128 * n = (b.toNat - 128 + 128 * n - 1) + 1 := by omega
          unfold encodeNat; rw [e, encodeNatFuel, ← e, if_neg (by omega), encodeNatFuel_eq _ _ (by omega)]
          have e1 : (b.toNat - 128 + 128 * n) % 128 = b.toNat - 128 := by omega
          have e2 : (b.toNat - 128 + 128 * n) / 128 = n := by omega
          rw [e1, e2, List.cons_append, this, show 128 + (b.toNat - 128) = b.toNat by omega]; simp

theorem writes_bool : Writes parseBool encodeBool := by
  intro bs a rest h
  obtain ⟨b, mid, h1, h2⟩ := Parser.andThen_ok h
  have := writes_byte _ _ _ h1
  split at h2
  · cases h2; subst b; exact this
  · split at h2
    · cases h2; subst b; exact this
    · cases h2

theorem writes_int : Writes parseInt encodeInt := by
  intro bs a rest h
  obtain ⟨b, mid, h1, h2⟩ := Parser.andThen_ok h
  obtain ⟨n, mid2, h3, h4⟩ := Parser.andThen_ok h2
  have e1 := writes_bool _ _ _ h1
  have e2 := writes_nat _ _ _ h3
  rw [← e1, ← e2]
  split at h4
  · split at h4
    · cases h4
    · cases h4; simp [encodeInt]; congr 1; subst b; simp; omega
  · cases h4; simp [encodeInt]; congr 1; simp_all

theorem writes_q : Writes parseQ encodeQ := by
  intro bs a rest h
  obtain ⟨b, mid, h1, h2⟩ := Parser.andThen_ok h
  obtain ⟨n, mid2, h3, h4⟩ := Parser.andThen_ok h2
  have e1 := writes_int _ _ _ h1
  have e2 := writes_nat _ _ _ h3
  rw [← e1, ← e2]
  split at h4
  · cases h4; simp [encodeQ]
  · cases h4

theorem writes_seq : Writes parseSeq encodeSeq := by
  intro bs a rest h
  obtain ⟨b, mid, h1, h2⟩ := Parser.andThen_ok h
  have e1 := writes_nat _ _ _ h1
  have e2 := writes_bytes _ _ _ _ h2
  have : a.length = b := by
    unfold parseBytes at h2; split at h2 <;> cases h2; simp; omega
  rw [← e1, ← e2]; simp [encodeSeq, this]

theorem writes_u16 : Writes parseU16 encodeU16 := by
  intro bs a rest h
  obtain ⟨b, mid, h1, h2⟩ := Parser.andThen_ok h
  obtain ⟨n, mid2, h3, h4⟩ := Parser.andThen_ok h2
  have e1 := writes_byte _ _ _ h1
  have e2 := writes_byte _ _ _ h3
  cases h4
  rw [← e1, ← e2]
  have a1 : (n ++ b : BitVec 16).extractLsb' 0 8 = b := BitVec.extractLsb'_append_eq_right
  have a2 : (n ++ b : BitVec 16).extractLsb' 8 8 = n := BitVec.extractLsb'_append_eq_left
  simp only [encodeU16]; rw [a1, a2]; rfl

theorem writes_u64 : Writes parseU64 encodeU64 := by
  intro bs a rest h
  obtain ⟨w0, m0, h0, h⟩ := Parser.andThen_ok h
  obtain ⟨w1, m1, h1, h⟩ := Parser.andThen_ok h
  obtain ⟨w2, m2, h2, h⟩ := Parser.andThen_ok h
  obtain ⟨w3, m3, h3, h⟩ := Parser.andThen_ok h
  cases h
  have e0 := writes_u16 _ _ _ h0
  have e1 := writes_u16 _ _ _ h1
  have e2 := writes_u16 _ _ _ h2
  have e3 := writes_u16 _ _ _ h3
  rw [← e0, ← e1, ← e2, ← e3]
  have key : ∀ k (_ : k < 4), (w3 ++ w2 ++ w1 ++ w0 : BitVec 64).extractLsb' (16*k) 16 = [w0,w1,w2,w3][k]'(by simpa) := by
    intro k hk
    apply BitVec.eq_of_getLsbD_eq
    intro i hi
    simp only [BitVec.getLsbD_append, BitVec.getLsbD_extractLsb', hi, decide_true, Bool.true_and]
    rcases (by omega : k = 0 ∨ k = 1 ∨ k = 2 ∨ k = 3) with rfl|rfl|rfl|rfl
    · simp [hi]
    · simp [show ¬ (16 + i < 16) by omega, hi]
    · simp [show ¬ (32 + i < 16) by omega, show ¬ (32 + i -16 < 16) by omega, hi, show 32 + i - 16 - 16 = i by omega]
    · simp [show ¬ (48 + i < 16) by omega, show ¬ (48 + i -16 < 16) by omega, show ¬ (48 + i -16 -16< 16) by omega, hi, show 48 + i - 16 - 16 -16 = i by omega]
  have k0 := key 0 (by omega); have k1 := key 1 (by omega); have k2 := key 2 (by omega); have k3 := key 3 (by omega)
  simp only [Nat.mul_zero, Nat.mul_one, Nat.reduceMul, List.getElem_cons_zero, List.getElem_cons_succ] at k0 k1 k2 k3
  simp only [encodeU64, List.append_assoc]
  rw [k0, k1, k2, k3]

theorem writes_point : Writes parsePoint encodePoint := by
  intro bs a rest h
  obtain ⟨w0, m0, h0, h⟩ := Parser.andThen_ok h
  obtain ⟨w1, m1, h1, h⟩ := Parser.andThen_ok h
  obtain ⟨w2, m2, h2, h⟩ := Parser.andThen_ok h
  cases h
  rw [← writes_bool _ _ _ h0, ← writes_q _ _ _ h1, ← writes_q _ _ _ h2]; simp [encodePoint]

theorem writes_points (n) : ∀ bs a rest, parsePoints n bs = .ok (a, rest) → encodePoints a ++ rest = bs ∧ a.length = n := by
  induction n with
  | zero => intro bs a rest h; cases h; exact ⟨rfl, rfl⟩
  | succ n ih =>
    intro bs a rest h
    obtain ⟨w0, m0, h0, h⟩ := Parser.andThen_ok h
    obtain ⟨w1, m1, h1, h⟩ := Parser.andThen_ok h
    cases h
    obtain ⟨e1, e2⟩ := ih _ _ _ h1
    rw [← writes_point _ _ _ h0, ← e1]; simp [encodePoints, e2]

theorem writes_mode2 : Writes parseMode2 encodeMode2 := by
  intro bs a rest h
  obtain ⟨b, m0, h0, h⟩ := Parser.andThen_ok h
  rw [← writes_byte _ _ _ h0]
  split at h <;> cases h
  rename_i hb
  simp only [encodeMode2, BitVec.toNat_ofNat]
  rw [Nat.mod_eq_of_lt hb]; simp

theorem writes_boatMode : Writes parseBoatMode encodeBoatMode := by
  intro bs a rest h
  obtain ⟨b, m0, h0, h⟩ := Parser.andThen_ok h
  rw [← writes_byte _ _ _ h0]
  split at h
  · cases h; subst b; rfl
  · split at h
    · cases h; subst b; rfl
    · split at h
      · cases h; subst b; rfl
      · cases h

theorem writes_cmd : Writes parseCmd encodeCmd := by
  intro bs a rest h
  obtain ⟨_, _, h0, h⟩ := Parser.andThen_ok h
  obtain ⟨_, _, h1, h⟩ := Parser.andThen_ok h
  obtain ⟨_, _, h2, h⟩ := Parser.andThen_ok h
  obtain ⟨_, _, h3, h⟩ := Parser.andThen_ok h
  obtain ⟨_, _, h4, h⟩ := Parser.andThen_ok h
  obtain ⟨_, _, h5, h⟩ := Parser.andThen_ok h
  obtain ⟨_, _, h6, h⟩ := Parser.andThen_ok h
  obtain ⟨_, _, h7, h⟩ := Parser.andThen_ok h
  obtain ⟨_, _, h8, h⟩ := Parser.andThen_ok h
  obtain ⟨_, _, h9, h⟩ := Parser.andThen_ok h
  cases h
  obtain ⟨e4, l4⟩ := writes_points _ _ _ _ h4
  rw [← writes_point _ _ _ h0, ← writes_bool _ _ _ h1, ← writes_u64 _ _ _ h2, ← writes_nat _ _ _ h3, ← e4, ← writes_bool _ _ _ h5, ← writes_bool _ _ _ h6, ← writes_mode2 _ _ _ h7, ← writes_u16 _ _ _ h8, ← writes_u16 _ _ _ h9]
  simp [encodeCmd, l4]

end Sys2Proof
end

