-- ==== Sys2Proof/Laws/Memory.lean ====
section
/-! SUPPORT. Byte arrays: what a read sees after a write, and each segment writer as one write of its whole segment. -/

namespace Sys2Proof.Machine

/-! ## Reads and writes (00_scope.md R9) -/

theorem memWrite_length (a : List Byte) (off : Nat) (s : List Byte) (h : off + s.length ≤ a.length) :
    (memWrite a off s).length = a.length := by
  simp [memWrite]
  omega

/-- A write in the middle of an array replaces the bytes there. -/
theorem memWrite_middle (a old z s : List Byte) (h : old.length = s.length) :
    memWrite (a ++ old ++ z) a.length s = a ++ s ++ z := by
  simp [memWrite, ← h]

/-- A write right behind a known front. -/
theorem memWrite_front (a z s : List Byte) : memWrite (a ++ z) a.length s = a ++ s ++ z.drop s.length := by
  simp [memWrite]

/-- Two writes side by side are one. -/
theorem memWrite_adjacent (t : List Byte) (p : Nat) (x y : List Byte) (h : p + x.length ≤ t.length) :
    memWrite (memWrite t p x) (p + x.length) y = memWrite t p (x ++ y) := by
  have hp : (t.take p ++ x).length = p + x.length := by simp; omega
  have e : memWrite t p x = (t.take p ++ x) ++ t.drop (p + x.length) := rfl
  rw [e, ← hp, memWrite_front]
  simp only [memWrite, List.drop_drop, List.length_append, List.append_assoc, hp]
  simp [Nat.add_assoc]

/-- A read outside the bytes a write stores sees what was there. -/
theorem byteAt_memWrite_outside (t : List Byte) (off k : Nat) (s : List Byte) (h : off + s.length ≤ t.length)
    (hk : k < off ∨ off + s.length ≤ k) : byteAt (memWrite t off s) k = byteAt t k := by
  have h1 : (t.take off).length = off := by simp; omega
  have e : memWrite t off s = t.take off ++ (s ++ t.drop (off + s.length)) := by simp [memWrite]
  rw [e]
  simp only [byteAt, List.getD_eq_getElem?_getD]
  rcases hk with hk | hk
  · rw [List.getElem?_append_left (by omega), List.getElem?_take_of_lt hk]
  · rw [List.getElem?_append_right (by omega), List.getElem?_append_right (by omega), List.getElem?_drop, h1]
    congr 2
    omega

/-- A read of the bytes a write stored gives them back. -/
theorem memRead_memWrite (t : List Byte) (off : Nat) (s : List Byte) (h : off + s.length ≤ t.length) :
    memRead (memWrite t off s) off s.length = s := by
  have h1 : (t.take off).length = off := by simp; omega
  have e : memWrite t off s = t.take off ++ (s ++ t.drop (off + s.length)) := by simp [memWrite]
  rw [memRead, e, List.drop_left' h1, List.take_left]

/-- A byte of a read, where the read reaches it, is the array's. -/
theorem byteAt_memRead (a : List Byte) (off : Nat) {n k : Nat} (h : k < n) :
    byteAt (memRead a off n) k = byteAt a (off + k) := by
  simp [byteAt, memRead, List.getD_eq_getElem?_getD, h]

/-! ## Lengths of what the codec writes -/

@[simp] theorem u8Pack_length (v : Int) : (u8Pack v).length = 1 := rfl
@[simp] theorem bool8Pack_length (v : Bool) : (bool8Pack v).length = 1 := by cases v <;> rfl
@[simp] theorem u16Pack_length (v : Int) : (u16Pack v).length = 2 := rfl
@[simp] theorem i64Pack_length (v : Int) : (i64Pack v).length = 8 := rfl
@[simp] theorem f32Pack_length (q : Q) : (f32Pack q).length = 4 := rfl
@[simp] theorem sfPack_length (v : Q) : (sfPack v).length = 5 := rfl

/-! ## Each segment writer as one write (43_command_encoder.md R200 to R204) -/

/-- The bytes of a control segment (R203). -/
def ctrlBytes (pumpAuto pumpActive : Bool) (mode : Int) (motor1 motor2 : BitVec 16) : List Byte :=
  bool8Pack pumpAuto ++ bool8Pack pumpActive ++ u8Pack mode ++ u16Pack (clampMotor motor1.toNat) ++
    u16Pack (clampMotor motor2.toNat)

@[simp] theorem ctrlBytes_length (pa pv : Bool) (m : Int) (m1 m2 : BitVec 16) : (ctrlBytes pa pv m m1 m2).length = 7 := by
  simp [ctrlBytes]

theorem writeHdr_eq (t : List Byte) (h : 2 ≤ t.length) : writeHdr t = memWrite t 0 [0xFF, 0xFE] :=
  memWrite_adjacent t 0 (u8Pack 0xFF) (u8Pack 0xFE) (by simp; omega)

theorem writePoint_eq (t : List Byte) (p : Nat) (lat lon : Q) (h : p + 10 ≤ t.length) :
    writePoint t p lat lon = memWrite t p (sfPack lon ++ sfPack lat) :=
  memWrite_adjacent t p (sfPack lon) (sfPack lat) (by simp; omega)

theorem writeCtrl_eq (t : List Byte) (c : Nat) (pa pv : Bool) (m : Int) (m1 m2 : BitVec 16) (h : c + 7 ≤ t.length) :
    writeCtrl t c pa pv m m1 m2 = memWrite t c (ctrlBytes pa pv m m1 m2) := by
  have h1 := memWrite_adjacent t c (bool8Pack pa) (bool8Pack pv) (by simp; omega)
  have h2 := memWrite_adjacent t c (bool8Pack pa ++ bool8Pack pv) (u8Pack m) (by simp; omega)
  have h3 := memWrite_adjacent t c (bool8Pack pa ++ bool8Pack pv ++ u8Pack m) (u16Pack (clampMotor m1.toNat))
    (by simp; omega)
  have h4 := memWrite_adjacent t c (bool8Pack pa ++ bool8Pack pv ++ u8Pack m ++ u16Pack (clampMotor m1.toNat))
    (u16Pack (clampMotor m2.toNat)) (by simp; omega)
  simp only [List.length_append, bool8Pack_length, u8Pack_length, u16Pack_length] at h1 h2 h3 h4
  rw [ctrlBytes, ← h4, ← h3, ← h2, ← h1]
  rfl

end Sys2Proof.Machine
end

