-- ==== Sys2Proof/Laws/Encode.lean ====
section
/-! SUPPORT. The selection and the writing of waypoints, each said once by list operations (43_command_encoder.md R190,
R197 to R199). -/

namespace Sys2Proof.Machine

/-- The accepted waypoints are the usable ones in order; the rejected positions are the others' (R197, R198). -/
theorem selectFrom_eq (k : Nat) (ws : List PointIn) : selectFrom k ws = (ws.filter usable, ((ws.zipIdx k).filterMap fun x => if usable x.1 then none else some x.2)) := by
  induction ws generalizing k with
  | nil => rfl
  | cons w ws ih =>
    simp only [selectFrom, ih, List.zipIdx_cons]
    by_cases h : usable w = true <;> simp [h]

/-- The base of the tail as R80 and R81 print it. -/
theorem offTail_eq (n : Nat) : Params.offTail n = 27 + 10 * n := by simp; omega

/-- The assembly with the offsets as R81 prints them. -/
theorem assemble_at_printed_offsets (t : List Byte) (c : EncCmd) (acc : List PointIn) :
    assemble t c acc =
      writeTail
        (writeCtrl
          (writePoints (writePoint (memWrite (writeHdr t) 2 (i64Pack c.ts.secs.toInt)) 10 c.home.lat c.home.lon) 1 acc)
          (20 + 10 * acc.length) c.pumpAuto c.pumpActive c.mode.toNat c.motor1 c.motor2)
        (27 + 10 * acc.length) := by
  rw [← offTail_eq]
  rfl

/-- The points of the accepted waypoints stand one after the other from the first one's base (R190, R198). -/
theorem writePoints_eq (acc : List PointIn) (a z : List Byte) (j : Nat) (ha : a.length = 10 + 10 * j) (hz : 10 * acc.length ≤ z.length) :
   writePoints (a ++ z) j acc = a ++ acc.flatMap (fun w => sfPack w.lon ++ sfPack w.lat) ++ z.drop (10 * acc.length) := by
  induction acc generalizing a z j with
  | nil => simp [writePoints]
  | cons w ws ih =>
    simp only [List.length_cons] at hz
    have hb : Params.offWaypoint j = a.length := ha.symm
    rw [writePoints, writePoint_eq _ _ _ _ (by simp; omega), hb, memWrite_front,
      ih (a ++ (sfPack w.lon ++ sfPack w.lat)) _ (j+1) (by simp; omega) (by simp; omega)]
    simp [List.flatMap_cons]; congr 1; omega

theorem points_length (acc : List PointIn) :
    (acc.flatMap (fun w => sfPack w.lon ++ sfPack w.lat)).length = 10 * acc.length := by
  induction acc with
  | nil => rfl
  | cons a l ih => simp [List.flatMap_cons] at ih ⊢; omega

/-- No check fails exactly when the home point is usable, the timestamp valid and the mode not 3 (R192 to R195). -/
theorem firstError_none_iff (c : EncCmd) :
    firstError c = none ↔ usable c.home = true ∧ c.ts.valid = true ∧ c.mode ≠ 3 := by
  unfold firstError
  cases usable c.home <;> cases c.ts.valid <;> simp

end Sys2Proof.Machine
end

