-- ==== Sys2Proof/Laws/Fields.lean ====
section
/-! SUPPORT. What each field class reads, said once in the bytes of the frame (30_encoding.md R62, R65). -/

namespace Sys2Proof.Machine

/-! ## The bytes of a field -/

@[simp] theorem intByte_eq (f : List Byte) (d : Params.Field) (k : Nat) (h : k < d.width) :
    intByte f d k = byteAt f (d.off + k) := byteAt_memRead f d.off h

@[simp] theorem fracByte_eq (f : List Byte) (d : Params.Field) (k : Nat) (h : k < d.frac) :
    fracByte f d k = byteAt f (d.fracOff + k) := byteAt_memRead f d.fracOff h

/-! ## The field classes, each at a field of its own widths -/

theorem u8At_eq (f : List Byte) (off : Nat) : u8At f { off := off, width := 1 } = byteAt f off := by
  simp [u8At, u8Unpack]

theorem u16At_eq (f : List Byte) (off : Nat) :
    u16At f { off := off, width := 2 } = u16Unpack (byteAt f off) (byteAt f (off + 1)) := by
  simp [u16At]

theorem i16At_eq (f : List Byte) (off : Nat) :
    i16At f { off := off, width := 2 } = i16Unpack (byteAt f off) (byteAt f (off + 1)) := by
  simp [i16At]

theorem hlAt_eq (f : List Byte) (off : Nat) :
    hlAt f { off := off, width := 1, frac := 1 } =
      (byteAt f off, byteAt f (off + 1), hlUnpack (byteAt f off) (byteAt f (off + 1))) := by
  simp [hlAt]

theorem sfAt_eq (f : List Byte) (off : Nat) :
    sfAt f { off := off, width := 1, frac := 4 } =
      ((byteAt f off).toInt,
       f32Pattern (byteAt f (off + 1)) (byteAt f (off + 2)) (byteAt f (off + 3)) (byteAt f (off + 4)),
       sfUnpack (byteAt f off) (byteAt f (off + 1)) (byteAt f (off + 2)) (byteAt f (off + 3)) (byteAt f (off + 4))) := by
  simp [sfAt, Nat.add_assoc]

theorem sbAt_eq (f : List Byte) (off : Nat) :
    sbAt f { off := off, width := 1, frac := 1 } =
      ((byteAt f off).toInt, byteAt f (off + 1), sbUnpack (byteAt f off) (byteAt f (off + 1))) := by
  simp [sbAt]

theorem ubAt_eq (f : List Byte) (off : Nat) :
    ubAt f { off := off, width := 1, frac := 1 } =
      (byteAt f off, byteAt f (off + 1), ubUnpack (byteAt f off) (byteAt f (off + 1))) := by
  simp [ubAt]

end Sys2Proof.Machine
end

