-- ==== Sys2Proof/Laws/Float.lean ====
section
/-! SUPPORT. What the steps of `F32LE.PACK` and `F32LE.UNPACK` compute, said once each (40_numeric_codec.md R103, R104). -/

namespace Sys2Proof.Machine

theorem pow2_eq_zpow (k : Int) : pow2 k = (2 : Q) ^ k := by
  cases k with
  | ofNat n => simp [pow2]
  | negSucc n => simp [pow2, zpow_negSucc]

theorem pow2_pos (k : Int) : 0 < pow2 k := by
  rw [pow2_eq_zpow]
  positivity

/-! ## The exponent -/

/-- `2^(E+1)` is twice `2^E`. -/
theorem pow2_succ (k : Int) : pow2 (k + 1) = 2 * pow2 k := by
  rw [pow2_eq_zpow, pow2_eq_zpow, zpow_add_one₀ (by norm_num)]
  ring

/-- `floorLog2 a` is the integer `E` with `2^E <= a < 2^(E+1)`. -/
theorem floorLog2_spec (a : Q) (h : 0 < a) : pow2 (floorLog2 a) ≤ a ∧ a < pow2 (floorLog2 a + 1) := by
  have hnum : 0 < a.num := Rat.num_pos.2 h
  have hp0 : a.num.natAbs ≠ 0 := by omega
  have hd0 : a.den ≠ 0 := a.den_nz
  have hp1 := Nat.log2_self_le hp0
  have hp2 := Nat.lt_log2_self (n := a.num.natAbs)
  have hd1 := Nat.log2_self_le hd0
  have hd2 := Nat.lt_log2_self (n := a.den)
  have ha : a = (a.num.natAbs : Q) / (a.den : Q) := by
    have e : (a.num.natAbs : Q) = (a.num : Q) := by rw [← Int.cast_natCast, Int.natAbs_of_nonneg hnum.le]
    rw [e]
    exact (Rat.num_div_den a).symm
  have hfl : floorLog2 a = if pow2 ((a.num.natAbs.log2 : Int) - (a.den.log2 : Int)) ≤ a
      then (a.num.natAbs.log2 : Int) - (a.den.log2 : Int) else (a.num.natAbs.log2 : Int) - (a.den.log2 : Int) - 1 := rfl
  generalize a.num.natAbs = p at hp0 hp1 hp2 ha hfl
  generalize a.den = d at hd0 hd1 hd2 ha hfl
  have hdq : (0 : Q) < d := by exact_mod_cast Nat.pos_of_ne_zero hd0
  have q1 : (2 : Q) ^ p.log2 ≤ p := by exact_mod_cast hp1
  have q2 : (p : Q) < 2 ^ (p.log2 + 1) := by exact_mod_cast hp2
  have q3 : (2 : Q) ^ d.log2 ≤ d := by exact_mod_cast hd1
  have q4 : (d : Q) < 2 ^ (d.log2 + 1) := by exact_mod_cast hd2
  have up : a < pow2 ((p.log2 : Int) - (d.log2 : Int) + 1) := by
    rw [ha, div_lt_iff₀ hdq, pow2_eq_zpow]
    have e : (2 : Q) ^ ((p.log2 : Int) - (d.log2 : Int) + 1) * 2 ^ d.log2 = 2 ^ (p.log2 + 1) := by
      rw [← zpow_natCast, ← zpow_natCast, ← zpow_add₀ (by norm_num)]
      congr 1
      push_cast
      ring
    calc (p : Q) < 2 ^ (p.log2 + 1) := q2
      _ = 2 ^ ((p.log2 : Int) - (d.log2 : Int) + 1) * 2 ^ d.log2 := e.symm
      _ ≤ _ := mul_le_mul_of_nonneg_left q3 (by positivity)
  have low : pow2 ((p.log2 : Int) - (d.log2 : Int) - 1) ≤ a := by
    rw [ha, le_div_iff₀ hdq, pow2_eq_zpow]
    have e : (2 : Q) ^ ((p.log2 : Int) - (d.log2 : Int) - 1) * 2 ^ (d.log2 + 1) = 2 ^ p.log2 := by
      rw [← zpow_natCast, ← zpow_natCast, ← zpow_add₀ (by norm_num)]
      congr 1
      push_cast
      ring
    calc _ ≤ (2 : Q) ^ ((p.log2 : Int) - (d.log2 : Int) - 1) * 2 ^ (d.log2 + 1) :=
          mul_le_mul_of_nonneg_left q4.le (by positivity)
      _ = 2 ^ p.log2 := e
      _ ≤ p := q1
  rw [hfl]
  split
  · next hle => exact ⟨hle, up⟩
  · next hle =>
    refine ⟨low, ?_⟩
    rw [Int.sub_add_cancel]
    exact not_le.1 hle

/-! ## The rounding -/

/-- The rounded integer is within a half, and at exactly a half it is even. -/
theorem roundHalfEven_spec (q : Q) : |(roundHalfEven q : Q) - q| ≤ 1 / 2 ∧
    (|(roundHalfEven q : Q) - q| = 1 / 2 → roundHalfEven q % 2 = 0) := by
  have h0 : (q.floor : Q) ≤ q := Rat.floor_le q
  have h1 : q < (q.floor : Q) + 1 := by exact_mod_cast Rat.lt_floor_add_one q
  unfold roundHalfEven
  simp only []
  generalize q.floor = n at h0 h1
  split
  · next hd => rw [abs_of_nonpos (by linarith)]; exact ⟨by linarith, fun h => absurd h (by linarith)⟩
  · next hd =>
    split
    · next hd2 => push_cast; rw [abs_of_nonneg (by linarith)]; exact ⟨by linarith, fun h => absurd h (by linarith)⟩
    · next hd2 =>
      have e : q - n = 1 / 2 := le_antisymm (not_lt.1 hd2) (not_lt.1 hd)
      split
      · next hev => rw [abs_of_nonpos (by linarith)]; exact ⟨by linarith, fun _ => hev⟩
      · next hev => push_cast; rw [abs_of_nonneg (by linarith)]; exact ⟨by linarith, fun _ => by omega⟩

/-! ## The pattern -/

/-- The fields of a pattern built from a sign, an exponent field and a fraction field. -/
theorem f32Value_fields (s : Bool) (x m : Nat) (hx : x < 255) (hm : m < 2 ^ 23) :
    f32Value (BitVec.ofNat 32 ((if s then 2 ^ 31 else 0) + x * 2 ^ 23 + m)) =
      .fin (signOf s * (if x = 0 then (m : Q) * pow2 (-149) else ((2 ^ 23 + m : Nat) : Q) * pow2 ((x : Int) - 150))) := by
  have hlt : (if s then 2 ^ 31 else 0) + x * 2 ^ 23 + m < 2 ^ 32 := by split <;> omega
  have hs : (BitVec.ofNat 32 ((if s then 2 ^ 31 else 0) + x * 2 ^ 23 + m)).getLsbD 31 = s := by
    rw [BitVec.getLsbD_eq_getElem (by omega), BitVec.getElem_eq_testBit_toNat, BitVec.toNat_ofNat,
      Nat.mod_eq_of_lt hlt, Nat.testBit_eq_decide_div_mod_eq]
    cases s <;> simp <;> omega
  have hx' : ((BitVec.ofNat 32 ((if s then 2 ^ 31 else 0) + x * 2 ^ 23 + m)).extractLsb' 23 8).toNat = x := by
    rw [BitVec.extractLsb'_toNat, BitVec.toNat_ofNat, Nat.mod_eq_of_lt hlt, Nat.shiftRight_eq_div_pow]
    cases s <;> simp <;> omega
  have hm' : ((BitVec.ofNat 32 ((if s then 2 ^ 31 else 0) + x * 2 ^ 23 + m)).extractLsb' 0 23).toNat = m := by
    rw [BitVec.extractLsb'_toNat, BitVec.toNat_ofNat, Nat.mod_eq_of_lt hlt, Nat.shiftRight_eq_div_pow]
    cases s <;> simp <;> omega
  simp only [f32Value, hs, hx', hm']
  rw [if_neg (by omega)]
  split <;> simp [mul_assoc]

/-- The pattern of sign `s` and magnitude `n * 2^(e - 23)` has that value (R103, R104). -/
theorem f32Value_compose (s : Bool) (n : Nat) (e : Int) (hn : n ≤ 2 ^ 24) (he : -126 ≤ e) (he' : e ≤ 127)
    (hmax : n = 2 ^ 24 → e ≤ 126) (hmin : n < 2 ^ 23 → e = -126) :
    f32Value (f32Compose s n e) = .fin (signOf s * ((n : Q) * pow2 (e - 23))) := by
  unfold f32Compose
  simp only []
  split
  · next h =>
    have := hmax h
    have hv := f32Value_fields s (e + 128).toNat 0 (by omega) (by norm_num)
    rw [Nat.add_zero] at hv
    rw [hv, if_neg (by omega), h]
    have e1 : ((e + 128).toNat : Int) - 150 = e - 23 + 1 := by omega
    rw [e1, pow2_succ]
    push_cast
    congr 2
    ring
  · split
    · next h1 h2 =>
      have hv := f32Value_fields s 0 n (by norm_num) h2
      rw [Nat.zero_mul, Nat.add_zero] at hv
      rw [hv, if_pos rfl, hmin h2]
      rfl
    · next h1 h2 =>
      have hv := f32Value_fields s (e + 127).toNat (n - 2 ^ 23) (by omega) (by omega)
      rw [hv, if_neg (by omega)]
      have e1 : ((e + 127).toNat : Int) - 150 = e - 23 := by omega
      have e2 : 2 ^ 23 + (n - 2 ^ 23) = n := by omega
      rw [e1, e2]

/-! ## The four bytes of a pattern -/

/-- The pattern of four bytes, as a number (20_memory.md R41). -/
theorem f32Pattern_toNat (b0 b1 b2 b3 : Byte) : (f32Pattern b0 b1 b2 b3).toNat = b0.toNat + 256 * b1.toNat + 65536 * b2.toNat + 16777216 * b3.toNat := by
  have := b0.isLt; have := b1.isLt; have := b2.isLt; have := b3.isLt
  simp [f32Pattern]; omega

/-- The four bytes written are the four bytes read back. -/
theorem f32Pattern_bytes32 (w : BitVec 32) : f32Pattern (w.extractLsb' 0 8) (w.extractLsb' 8 8) (w.extractLsb' 16 8) (w.extractLsb' 24 8) = w := by
  apply BitVec.eq_of_toNat_eq
  rw [f32Pattern_toNat]; simp only [BitVec.extractLsb'_toNat, Nat.shiftRight_eq_div_pow]
  have := w.isLt; omega

/-! ## The integer part -/

/-- Toward zero: the rest has a magnitude below 1 and the sign of the number (00_scope.md R8). -/
theorem trunc0_spec (v : Q) : |v - trunc0 v| < 1 ∧ (0 ≤ v → 0 ≤ v - trunc0 v ∧ 0 ≤ trunc0 v) ∧ (v ≤ 0 → v - trunc0 v ≤ 0 ∧ trunc0 v ≤ 0) := by
  have hd : (0:Q) < v.den := by exact_mod_cast v.den_pos
  have e : v * v.den = v.num := by rw [mul_comm]; exact_mod_cast (by rw [mul_comm]; exact Rat.mul_den_eq_num v)
  set t := trunc0 v with ht
  obtain ⟨d, hdd⟩ : ∃ d : Int, d = v.den := ⟨_, rfl⟩
  have hd' : (0:Int) < d := by rw [hdd]; exact_mod_cast v.den_pos
  have hcast : (v.den : Q) = (d : Q) := by simp [hdd]
  have ht2 : t = v.num.tdiv d := by rw [ht, hdd]; rfl
  have h1 : v.num = d * t + v.num.tmod d := by rw [ht2]; exact (Int.mul_tdiv_add_tmod v.num d).symm
  have hr := Int.tmod_lt_of_pos v.num hd'
  have key : (v - t) * d = (v.num.tmod d : Int) := by
    have := congrArg (Int.cast : Int → Q) h1
    push_cast at this
    rw [sub_mul, ← hcast, e, this, hcast]; ring
  rw [hcast] at hd
  have hd1 : (0:Q) < d := hd
  refine ⟨?_, ?_, ?_⟩
  · rw [abs_lt]
    have a1 : (v.num.tmod d : Int) < d := hr
    have a2 : -d < (v.num.tmod d : Int) := by have := Int.tmod_lt_of_pos (-v.num) hd'; rw [Int.neg_tmod] at this; omega
    have b1 : ((v.num.tmod d : Int):Q) < d := by exact_mod_cast a1
    have b2 : -(d:Q) < ((v.num.tmod d : Int):Q) := by exact_mod_cast a2
    rw [← key] at b1 b2
    constructor <;> nlinarith
  · intro h
    have hn : 0 ≤ v.num := Rat.num_nonneg.2 h
    have a : 0 ≤ v.num.tmod d := Int.tmod_nonneg d hn
    have b : (0:Q) ≤ ((v.num.tmod d : Int):Q) := by exact_mod_cast a
    rw [← key] at b
    exact ⟨by nlinarith, ht2 ▸ Int.tdiv_nonneg hn hd'.le⟩
  · intro h
    have hn : v.num ≤ 0 := Rat.num_nonpos.2 h
    have a : v.num.tmod d ≤ 0 := by
      have := Int.tmod_nonneg d (a := -v.num) (by omega)
      rw [Int.neg_tmod] at this; omega
    have b : ((v.num.tmod d : Int):Q) ≤ 0 := by exact_mod_cast a
    rw [← key] at b
    refine ⟨by nlinarith, ?_⟩
    have := Int.tdiv_nonneg (a := -v.num) (b := d) (by omega) hd'.le
    rw [Int.neg_tdiv] at this; rw [ht2]; omega

end Sys2Proof.Machine
end

