-- ==== Sys2Proof/Laws/State.lean ====
section
/-! SUPPORT. One lemma per field per update of the state, so that no proof unfolds a record update. -/

namespace Sys2Proof.Machine

variable (s : State)

@[simp] theorem State.setBuf_buf (b : List Byte) : (s.setBuf b).buf = b := rfl
@[simp] theorem State.setBuf_rstDone (b : List Byte) : (s.setBuf b).rstDone = s.rstDone := rfl
@[simp] theorem State.setBuf_linkOpen (b : List Byte) : (s.setBuf b).linkOpen = s.linkOpen := rfl
@[simp] theorem State.setBuf_frameOut (b : List Byte) : (s.setBuf b).frameOut = s.frameOut := rfl
@[simp] theorem State.setBuf_readingsOut (b : List Byte) : (s.setBuf b).readingsOut = s.readingsOut := rfl
@[simp] theorem State.setBuf_encResult (b : List Byte) : (s.setBuf b).encResult = s.encResult := rfl
@[simp] theorem State.setBuf_valueOut (b : List Byte) : (s.setBuf b).valueOut = s.valueOut := rfl
@[simp] theorem State.setBuf_input (b : List Byte) : (s.setBuf b).input = s.input := rfl

@[simp] theorem State.setReset_buf : s.setReset.buf = [] := rfl
@[simp] theorem State.setReset_rstDone : s.setReset.rstDone = true := rfl
@[simp] theorem State.setReset_linkOpen : s.setReset.linkOpen = s.linkOpen := rfl
@[simp] theorem State.setReset_frameOut : s.setReset.frameOut = s.frameOut := rfl
@[simp] theorem State.setReset_readingsOut : s.setReset.readingsOut = s.readingsOut := rfl
@[simp] theorem State.setReset_encResult : s.setReset.encResult = s.encResult := rfl
@[simp] theorem State.setReset_valueOut : s.setReset.valueOut = s.valueOut := rfl
@[simp] theorem State.setReset_input : s.setReset.input = s.input := rfl

@[simp] theorem State.setInput_buf (bs : List Byte) : (s.setInput bs).buf = s.buf := rfl
@[simp] theorem State.setInput_rstDone (bs : List Byte) : (s.setInput bs).rstDone = s.rstDone := rfl
@[simp] theorem State.setInput_linkOpen (bs : List Byte) : (s.setInput bs).linkOpen = s.linkOpen := rfl
@[simp] theorem State.setInput_frameOut (bs : List Byte) : (s.setInput bs).frameOut = s.frameOut := rfl
@[simp] theorem State.setInput_readingsOut (bs : List Byte) : (s.setInput bs).readingsOut = s.readingsOut := rfl
@[simp] theorem State.setInput_encResult (bs : List Byte) : (s.setInput bs).encResult = s.encResult := rfl
@[simp] theorem State.setInput_valueOut (bs : List Byte) : (s.setInput bs).valueOut = s.valueOut := rfl
@[simp] theorem State.setInput_input (bs : List Byte) : (s.setInput bs).input = bs := rfl

@[simp] theorem State.emitFrameOut_buf (f : List Byte) : (s.emitFrameOut f).buf = s.buf := rfl
@[simp] theorem State.emitFrameOut_rstDone (f : List Byte) : (s.emitFrameOut f).rstDone = s.rstDone := rfl
@[simp] theorem State.emitFrameOut_linkOpen (f : List Byte) : (s.emitFrameOut f).linkOpen = s.linkOpen := rfl
@[simp] theorem State.emitFrameOut_frameOut (f : List Byte) : (s.emitFrameOut f).frameOut = s.frameOut ++ [f] := rfl
@[simp] theorem State.emitFrameOut_readingsOut (f : List Byte) : (s.emitFrameOut f).readingsOut = s.readingsOut := rfl
@[simp] theorem State.emitFrameOut_encResult (f : List Byte) : (s.emitFrameOut f).encResult = s.encResult := rfl
@[simp] theorem State.emitFrameOut_valueOut (f : List Byte) : (s.emitFrameOut f).valueOut = s.valueOut := rfl
@[simp] theorem State.emitFrameOut_input (f : List Byte) : (s.emitFrameOut f).input = s.input := rfl

@[simp] theorem State.emitReadings_buf (r : Readings) : (s.emitReadings r).buf = s.buf := rfl
@[simp] theorem State.emitReadings_rstDone (r : Readings) : (s.emitReadings r).rstDone = s.rstDone := rfl
@[simp] theorem State.emitReadings_linkOpen (r : Readings) : (s.emitReadings r).linkOpen = s.linkOpen := rfl
@[simp] theorem State.emitReadings_frameOut (r : Readings) : (s.emitReadings r).frameOut = s.frameOut := rfl
@[simp] theorem State.emitReadings_readingsOut (r : Readings) : (s.emitReadings r).readingsOut = s.readingsOut ++ [r] := rfl
@[simp] theorem State.emitReadings_encResult (r : Readings) : (s.emitReadings r).encResult = s.encResult := rfl
@[simp] theorem State.emitReadings_valueOut (r : Readings) : (s.emitReadings r).valueOut = s.valueOut := rfl
@[simp] theorem State.emitReadings_input (r : Readings) : (s.emitReadings r).input = s.input := rfl

@[simp] theorem State.emitResult_buf (r : EncodeResult) : (s.emitResult r).buf = s.buf := rfl
@[simp] theorem State.emitResult_rstDone (r : EncodeResult) : (s.emitResult r).rstDone = s.rstDone := rfl
@[simp] theorem State.emitResult_linkOpen (r : EncodeResult) : (s.emitResult r).linkOpen = s.linkOpen := rfl
@[simp] theorem State.emitResult_frameOut (r : EncodeResult) : (s.emitResult r).frameOut = s.frameOut := rfl
@[simp] theorem State.emitResult_readingsOut (r : EncodeResult) : (s.emitResult r).readingsOut = s.readingsOut := rfl
@[simp] theorem State.emitResult_encResult (r : EncodeResult) : (s.emitResult r).encResult = s.encResult ++ [r] := rfl
@[simp] theorem State.emitResult_valueOut (r : EncodeResult) : (s.emitResult r).valueOut = s.valueOut := rfl
@[simp] theorem State.emitResult_input (r : EncodeResult) : (s.emitResult r).input = s.input := rfl

@[simp] theorem State.emitValue_buf (v : Value) : (s.emitValue v).buf = s.buf := rfl
@[simp] theorem State.emitValue_rstDone (v : Value) : (s.emitValue v).rstDone = s.rstDone := rfl
@[simp] theorem State.emitValue_linkOpen (v : Value) : (s.emitValue v).linkOpen = s.linkOpen := rfl
@[simp] theorem State.emitValue_frameOut (v : Value) : (s.emitValue v).frameOut = s.frameOut := rfl
@[simp] theorem State.emitValue_readingsOut (v : Value) : (s.emitValue v).readingsOut = s.readingsOut := rfl
@[simp] theorem State.emitValue_encResult (v : Value) : (s.emitValue v).encResult = s.encResult := rfl
@[simp] theorem State.emitValue_valueOut (v : Value) : (s.emitValue v).valueOut = s.valueOut ++ [v] := rfl
@[simp] theorem State.emitValue_input (v : Value) : (s.emitValue v).input = s.input := rfl

/-! ## Two updates of one field, and updates of different fields in either order -/

@[simp] theorem State.setBuf_self : s.setBuf s.buf = s := rfl
@[simp] theorem State.setInput_self : s.setInput s.input = s := rfl
@[simp] theorem State.setBuf_setBuf (a b : List Byte) : (s.setBuf a).setBuf b = s.setBuf b := rfl
@[simp] theorem State.setInput_setInput (a b : List Byte) : (s.setInput a).setInput b = s.setInput b := rfl
@[simp] theorem State.setReset_setReset : s.setReset.setReset = s.setReset := rfl
@[simp] theorem State.setReset_setBuf (b : List Byte) : (s.setBuf b).setReset = s.setReset := rfl
theorem State.emitResult_setBuf (r : EncodeResult) (b : List Byte) :
    (s.setBuf b).emitResult r = (s.emitResult r).setBuf b := rfl
theorem State.emitResult_emitFrameOut (r : EncodeResult) (f : List Byte) :
    (s.emitFrameOut f).emitResult r = (s.emitResult r).emitFrameOut f := rfl
theorem State.emitResult_emitReadings (r : EncodeResult) (t : Readings) :
    (s.emitReadings t).emitResult r = (s.emitResult r).emitReadings t := rfl

/-! ## The status outputs read the buffer alone (10_state.md R25) -/

@[simp] theorem State.rxPhase_eq : s.rxPhase = phase s.buf := rfl
@[simp] theorem State.rxLen_eq : s.rxLen = s.buf.length := rfl

end Sys2Proof.Machine
end

