-- ==== Sys2Proof/Laws/Framer.lean ====
section
/-! SUPPORT. What the framer's loop can do, said once: the loop on a state is the reference loop on its buffer, with
each frame found delivered and decoded. -/

namespace Sys2Proof.Machine

theorem isMarker_iff (b0 b1 : Byte) : isMarker b0 b1 = true ↔ b0 = Params.mark0 ∧ b1 = Params.mark1 := by
  have key : (head16 b0 b1 &&& 0xFFFF) = b0 ++ b1 := by
    have : (0xFFFF : BitVec 16) = BitVec.allOnes 16 := rfl
    rw [this, BitVec.and_allOnes, head16]
  rw [isMarker, key, beq_iff_eq]
  constructor
  · intro h
    have h0 := congrArg (fun w : BitVec 16 => w.extractLsb' 8 8) h
    have h1 := congrArg (fun w : BitVec 16 => w.extractLsb' 0 8) h
    simp only [BitVec.extractLsb'_append_eq_left, BitVec.extractLsb'_append_eq_right] at h0 h1
    exact ⟨h0, h1⟩
  · rintro ⟨rfl, rfl⟩
    rfl

/-! ## The phase, by the shape of the buffer (10_state.md R24) -/

@[simp] theorem phase_nil : phase [] = .idle := rfl
@[simp] theorem phase_one (a : Byte) : phase [a] = .idle := rfl

theorem phase_cons (a b : Byte) (rest : List Byte) : phase (a :: b :: rest) =
    if a = 0xFF ∧ b = 0xFE then (if rest.length < 63 then .wait else .ready) else .hunt := by
  have hlen : (rest.length + 2 < Params.rxLen) = (rest.length < 63) := propext (by simp; omega)
  by_cases h : a = 0xFF ∧ b = 0xFE
  · have hm : isMarker a b = true := (isMarker_iff a b).2 h
    simp only [phase, hm, if_true, hlen, if_pos h]
  · have hm : ¬ isMarker a b = true := fun hc => h ((isMarker_iff a b).1 hc)
    simp only [phase, if_neg hm, if_neg h]

/-! ## The reference loop, by the shape of the buffer (41_framer.md R130) -/

theorem feedRefLoop_succ (k : Nat) (b : List Byte) : feedRefLoop (k + 1) b =
    match phase b with
    | .idle => (b, [])
    | .hunt => feedRefLoop k (b.drop 1)
    | .wait => (b, [])
    | .ready => ((feedRefLoop k (b.drop Params.rxLen)).1,
        b.take Params.rxLen :: (feedRefLoop k (b.drop Params.rxLen)).2) := by
  match b with
  | [] => rfl
  | [a] => rfl
  | a :: c :: rest =>
    rw [phase_cons]
    have h2 : ¬ (a :: c :: rest).length < 2 := by simp
    have hlen : (a :: c :: rest).length < Params.rxLen ↔ rest.length < 63 := by simp; omega
    have hb : (byteAt (a :: c :: rest) 0 = Params.mark0 ∧ byteAt (a :: c :: rest) 1 = Params.mark1) ↔
        (a = 0xFF ∧ c = 0xFE) := Iff.rfl
    simp only [feedRefLoop, if_neg h2, hb, hlen]
    by_cases hm : a = 0xFF ∧ c = 0xFE
    · by_cases hr : rest.length < 63 <;> simp only [hm, hr, and_self, not_true_eq_false, if_false, if_true]
    · simp only [hm, not_false_eq_true, if_true, if_false]

/-- Fuel beyond the length of the buffer changes nothing: every repetition shortens it. -/
theorem feedRefLoop_fuel (k : Nat) (b : List Byte) (h : b.length ≤ k) : feedRefLoop k b = feedRefLoop b.length b := by
  induction k using Nat.strongRecOn generalizing b with
  | ind k ih =>
    match k, b, h with
    | 0, [], _ => rfl
    | k + 1, [], _ => rfl
    | k + 1, a :: rest, h =>
      have hd : ((a :: rest).drop Params.rxLen).length ≤ rest.length := by simp
      have hk : rest.length ≤ k := Nat.le_of_succ_le_succ h
      have e1 : feedRefLoop k ((a :: rest).drop 1) = feedRefLoop rest.length ((a :: rest).drop 1) :=
        ih k (Nat.lt_succ_self k) rest hk
      have e2 : feedRefLoop k ((a :: rest).drop Params.rxLen) =
          feedRefLoop rest.length ((a :: rest).drop Params.rxLen) := by
        rw [ih k (Nat.lt_succ_self k) _ (Nat.le_trans hd hk)]
        exact (ih rest.length (Nat.lt_succ_of_le hk) _ hd).symm
      show feedRefLoop (k + 1) (a :: rest) = feedRefLoop (rest.length + 1) (a :: rest)
      rw [feedRefLoop_succ, feedRefLoop_succ, e1, e2]

/-! ## The loop on a state -/

/-- The loop changes the buffer, `frame_out` and `readings_out` as the reference loop says, and nothing else. -/
theorem framerLoop_eq (k : Nat) (s : State) : framerLoop k s = { s with
    buf := (feedRefLoop k s.buf).1
    frameOut := s.frameOut ++ (feedRefLoop k s.buf).2
    readingsOut := s.readingsOut ++ (feedRefLoop k s.buf).2.map decodeFrame } := by
  induction k generalizing s with
  | zero => simp [framerLoop, feedRefLoop]
  | succ k ih =>
    rw [feedRefLoop_succ, framerLoop]
    cases phase s.buf with
    | idle => simp
    | wait => simp
    | hunt =>
      simp only []
      rw [ih]
      rfl
    | ready =>
      simp only []
      rw [ih]
      simp [emitFront, memRead]

/-- One FEEDB as the reference algorithm (41_framer.md R128). -/
theorem feedByte_eq (s : State) (b : Byte) : feedByte s b = { s with
    buf := (feedRef s.buf [b]).1
    frameOut := s.frameOut ++ (feedRef s.buf [b]).2
    readingsOut := s.readingsOut ++ (feedRef s.buf [b]).2.map decodeFrame } :=
  framerLoop_eq _ _

@[simp] theorem feedBytes_nil (s : State) : feedBytes s [] = s := rfl
@[simp] theorem feedBytes_cons (s : State) (b : Byte) (bs : List Byte) :
    feedBytes s (b :: bs) = feedBytes (feedByte s b) bs := rfl
theorem feedBytes_append (s : State) (xs ys : List Byte) :
    feedBytes s (xs ++ ys) = feedBytes (feedBytes s xs) ys := List.foldl_append

/-! ## The buffer keeps its form -/

/-- A settled buffer is one on which the loop stops at once (10_state.md R22). -/
theorem settled_iff (b : List Byte) : bufferSettled b = true ↔ phase b = .idle ∨ phase b = .wait := by
  match b with
  | [] => simp [bufferSettled]
  | [a] => simp [bufferSettled]
  | a :: c :: rest =>
    rw [phase_cons]
    simp only [bufferSettled, Bool.and_eq_true, beq_iff_eq, decide_eq_true_eq]
    have hlen : rest.length + 2 < Params.rxLen ↔ rest.length < 63 := by simp; omega
    rw [hlen]
    by_cases hm : a = 0xFF ∧ c = 0xFE
    · by_cases hr : rest.length < 63 <;> simp only [hm, hr] <;> decide
    · simp only [if_neg hm, reduceCtorEq, or_false, iff_false]
      exact fun h => hm h.1

/-- A settled buffer has room for one more byte (41_framer.md R121). -/
theorem settled_length (b : List Byte) (h : bufferSettled b = true) : b.length ≤ 64 := by
  match b, h with
  | [], _ => simp
  | [a], _ => simp
  | a :: c :: rest, h =>
    simp only [bufferSettled, Bool.and_eq_true, decide_eq_true_eq] at h
    have h65 := h.2
    simp at h65 ⊢
    omega

/-- The append of a byte to a settled buffer fits its storage (41_framer.md R121, R137). -/
theorem append_fits (b : List Byte) (x : Byte) (h : bufferSettled b = true) : bufferFits (b ++ [x]) = true := by
  have := settled_length b h
  simp [bufferFits]
  omega

/-- Removing bytes from the front keeps the buffer inside its storage (41_framer.md R125, R126). -/
theorem drop_fits (b : List Byte) (n : Nat) (h : bufferFits b = true) : bufferFits (b.drop n) = true := by
  simp [bufferFits] at h ⊢
  omega

/-- Run on any buffer, the loop leaves a settled one. -/
theorem feedRefLoop_settled (k : Nat) (b : List Byte) (h : b.length ≤ k) :
    bufferSettled (feedRefLoop k b).1 = true := by
  induction k generalizing b with
  | zero =>
    obtain rfl : b = [] := List.eq_nil_of_length_eq_zero (by omega)
    rfl
  | succ k ih =>
    rw [feedRefLoop_succ]
    cases hp : phase b with
    | idle => exact (settled_iff b).2 (.inl hp)
    | wait => exact (settled_iff b).2 (.inr hp)
    | hunt => exact ih _ (by simp; omega)
    | ready => exact ih _ (by simp; omega)

/-- Every frame the loop finds is syntactically valid (41_framer.md R133). -/
theorem feedRefLoop_frames (k : Nat) (b : List Byte) : ∀ f ∈ (feedRefLoop k b).2, validFrame f = true := by
  induction k generalizing b with
  | zero => simp [feedRefLoop]
  | succ k ih =>
    rw [feedRefLoop_succ]
    cases hp : phase b with
    | idle => simp
    | wait => simp
    | hunt => exact ih _
    | ready =>
      intro f hf
      simp only [List.mem_cons] at hf
      rcases hf with rfl | hf
      · match b, hp with
        | a :: c :: r, hp =>
          rw [phase_cons] at hp
          split at hp
          · rename_i h
            split at hp; cases hp
            rw [h.1, h.2]
            simp [validFrame]; omega
          · cases hp
      · exact ih _ f hf

theorem feedByte_settled (s : State) (b : Byte) : bufferSettled (feedByte s b).buf = true := by
  rw [feedByte_eq]
  exact feedRefLoop_settled _ _ (Nat.le_refl _)

/-! ## The loop run to its end -/

/-- The loop run on a buffer until it ends. -/
abbrev settle (b : List Byte) := feedRefLoop b.length b

/-- One turn of the loop (41_framer.md R123). -/
theorem settle_eq (b) : settle b = match phase b with
    | .idle => (b, [])
    | .hunt => settle (b.drop 1)
    | .wait => (b, [])
    | .ready => ((settle (b.drop Params.rxLen)).1, b.take Params.rxLen :: (settle (b.drop Params.rxLen)).2) := by
  rw [show settle b = feedRefLoop (b.length+1) b from (feedRefLoop_fuel _ _ (by omega)).symm, feedRefLoop_succ]
  rw [feedRefLoop_fuel b.length (b.drop 1) (by simp), feedRefLoop_fuel b.length (b.drop Params.rxLen) (by simp)]

/-- Bytes at the back change no decision already made: the argument of 41_framer.md R129. -/
theorem settle_append : ∀ (n : Nat) (b t : List Byte), b.length ≤ n →
   settle (b ++ t) = ((settle ((settle b).1 ++ t)).1, (settle b).2 ++ (settle ((settle b).1 ++ t)).2) := by
  intro n
  induction n with
  | zero => intro b t h; obtain rfl : b = [] := List.eq_nil_of_length_eq_zero (by omega); rfl
  | succ n ih =>
    intro b t h
    match b with
    | [] => rfl
    | [a] => rfl
    | a :: c :: rest =>
      rw [settle_eq (a :: c :: rest)]
      by_cases hm : a = 0xFF ∧ c = 0xFE
      · by_cases hr : rest.length < 63
        · simp only [phase_cons, if_pos hm, if_pos hr]; simp
        · rw [settle_eq (a :: c :: rest ++ t)]
          have : ¬ (rest ++ t).length < 63 := by simp; omega
          simp only [phase_cons, if_pos hm, if_neg hr, List.cons_append, if_neg this]
          have h65 : Params.rxLen ≤ (a::c::rest).length := by simp; omega
          have e := ih ((a :: c :: rest).drop Params.rxLen) t (by simp at h ⊢; omega)
          rw [show (a :: c :: (rest ++ t)) = (a :: c :: rest) ++ t from rfl, List.drop_append_of_le_length h65, List.take_append_of_le_length h65, e]
          try simp
      · rw [settle_eq (a :: c :: rest ++ t)]
        simp only [phase_cons, if_neg hm, List.cons_append]
        exact ih (c :: rest) t (by simp at h ⊢; omega)

/-- On a settled buffer the loop does nothing (10_state.md R22). -/
theorem settle_settled_id (b) (h : bufferSettled b = true) : settle b = (b, []) := by
  rw [settle_eq]; rcases (settled_iff b).1 h with h|h <;> rw [h]

end Sys2Proof.Machine
end

