-- ==== Sys2Proof/Laws/Guards.lean ====
section
/-! SUPPORT. When each shared guard answers a next state, and which: the inversion lemmas of the shared operations. -/

namespace Sys2Proof.Machine

theorem afterReset_next_iff (s t s' : State) :
    afterReset s t = .next s' ↔ s.rstDone = true ∧ s' = t := by
  unfold afterReset
  split
  · next h => simp [h, eq_comm]
  · next h => simp [h]

theorem microStep_next_iff (p : Phase) (t s s' : State) :
    microStep p t s = .next s' ↔ s.rstDone = true ∧ phase s.buf = p ∧ s' = t := by
  unfold microStep
  split
  · next h =>
    split
    · next hp => simp [h, hp, eq_comm]
    · next hp => simp [hp]
  · next h => simp [h]

theorem extract_next_iff (f : List Byte) (v : Value) (s s' : State) :
    extract f v s = .next s' ↔ f.length = Params.rxLen ∧ s' = s.emitValue v := by
  unfold extract
  split
  · next h => simp [h, eq_comm]
  · next h => simp [h]

theorem writeSegment_next_iff (t : List Byte) (off n : Nat) (t' : List Byte) (s s' : State) :
    writeSegment t off n t' s = .next s' ↔ off + n ≤ t.length ∧ s' = s.emitValue (.bytes t') := by
  unfold writeSegment
  split
  · next h => simp [fits] at h; simp [h, eq_comm]
  · next h => simp [fits] at h; simp; omega

theorem primitive_next_iff (d : Bool) (v : Value) (s s' : State) :
    primitive d v s = .next s' ↔ d = true ∧ s' = s.emitValue v := by
  unfold primitive
  split
  · next h => simp [h, eq_comm]
  · next h => simp [h]

end Sys2Proof.Machine
end

