-- ==== Sys2Proof/Laws/PerInstr.lean ====
section
/-! SUPPORT. The family RoundTrip: the decoder reads back the words of an operation, one lemma per constructor. -/

namespace Sys2Proof.Laws.RoundTrip

/-- Decoding the words of a well-formed operation gives it back, with every operand, and leaves what follows. -/
def Statement (i : Instr) : Prop := i.wellFormed = true → ∀ rest, decode (encode i ++ rest) = .ok (i, rest)

theorem rst : Statement (.rst) := fun _ => reads_operation 0 [] _ (Reads.done _)

theorem feedb (b : Byte) : Statement (.feedb b) := fun _ =>
  reads_operation 1 _ _ (Reads.last (g := fun x => Instr.feedb x) (reads_byte _))

theorem feed (bytes : List Byte) : Statement (.feed bytes) := fun _ =>
  reads_operation 2 _ _ (Reads.last (g := fun x => Instr.feed x) (reads_seq _))

theorem fIdle : Statement (.fIdle) := fun _ => reads_operation 3 [] _ (Reads.done _)

theorem fDrop : Statement (.fDrop) := fun _ => reads_operation 4 [] _ (Reads.done _)

theorem fWait : Statement (.fWait) := fun _ => reads_operation 5 [] _ (Reads.done _)

theorem fEmit : Statement (.fEmit) := fun _ => reads_operation 6 [] _ (Reads.done _)

theorem decode (f : List Byte) : Statement (.decode f) := fun h =>
  reads_operation 7 _ _ (Reads.last (g := fun x => Instr.decode x) (reads_frame f h))

theorem xM1 (f : List Byte) : Statement (.xM1 f) := fun h =>
  reads_operation 8 _ _ (Reads.last (g := fun x => Instr.xM1 x) (reads_frame f h))

theorem xM2 (f : List Byte) : Statement (.xM2 f) := fun h =>
  reads_operation 9 _ _ (Reads.last (g := fun x => Instr.xM2 x) (reads_frame f h))

theorem xCo2 (f : List Byte) : Statement (.xCo2 f) := fun h =>
  reads_operation 10 _ _ (Reads.last (g := fun x => Instr.xCo2 x) (reads_frame f h))

theorem xCh2o (f : List Byte) : Statement (.xCh2o f) := fun h =>
  reads_operation 11 _ _ (Reads.last (g := fun x => Instr.xCh2o x) (reads_frame f h))

theorem xTvoc (f : List Byte) : Statement (.xTvoc f) := fun h =>
  reads_operation 12 _ _ (Reads.last (g := fun x => Instr.xTvoc x) (reads_frame f h))

theorem xPm25 (f : List Byte) : Statement (.xPm25 f) := fun h =>
  reads_operation 13 _ _ (Reads.last (g := fun x => Instr.xPm25 x) (reads_frame f h))

theorem xPm10 (f : List Byte) : Statement (.xPm10 f) := fun h =>
  reads_operation 14 _ _ (Reads.last (g := fun x => Instr.xPm10 x) (reads_frame f h))

theorem xAirT (f : List Byte) : Statement (.xAirT f) := fun h =>
  reads_operation 15 _ _ (Reads.last (g := fun x => Instr.xAirT x) (reads_frame f h))

theorem xAirH (f : List Byte) : Statement (.xAirH f) := fun h =>
  reads_operation 16 _ _ (Reads.last (g := fun x => Instr.xAirH x) (reads_frame f h))

theorem xTurb (f : List Byte) : Statement (.xTurb f) := fun h =>
  reads_operation 17 _ _ (Reads.last (g := fun x => Instr.xTurb x) (reads_frame f h))

theorem xPh (f : List Byte) : Statement (.xPh f) := fun h =>
  reads_operation 18 _ _ (Reads.last (g := fun x => Instr.xPh x) (reads_frame f h))

theorem xTds (f : List Byte) : Statement (.xTds f) := fun h =>
  reads_operation 19 _ _ (Reads.last (g := fun x => Instr.xTds x) (reads_frame f h))

theorem xWatT (f : List Byte) : Statement (.xWatT f) := fun h =>
  reads_operation 20 _ _ (Reads.last (g := fun x => Instr.xWatT x) (reads_frame f h))

theorem xWlvl (f : List Byte) : Statement (.xWlvl f) := fun h =>
  reads_operation 21 _ _ (Reads.last (g := fun x => Instr.xWlvl x) (reads_frame f h))

theorem xLat (f : List Byte) : Statement (.xLat f) := fun h =>
  reads_operation 22 _ _ (Reads.last (g := fun x => Instr.xLat x) (reads_frame f h))

theorem xLon (f : List Byte) : Statement (.xLon f) := fun h =>
  reads_operation 23 _ _ (Reads.last (g := fun x => Instr.xLon x) (reads_frame f h))

theorem xHdg (f : List Byte) : Statement (.xHdg f) := fun h =>
  reads_operation 24 _ _ (Reads.last (g := fun x => Instr.xHdg x) (reads_frame f h))

theorem xSpd (f : List Byte) : Statement (.xSpd f) := fun h =>
  reads_operation 25 _ _ (Reads.last (g := fun x => Instr.xSpd x) (reads_frame f h))

theorem xBat (f : List Byte) : Statement (.xBat f) := fun h =>
  reads_operation 26 _ _ (Reads.last (g := fun x => Instr.xBat x) (reads_frame f h))

theorem xMode (f : List Byte) : Statement (.xMode f) := fun h =>
  reads_operation 27 _ _ (Reads.last (g := fun x => Instr.xMode x) (reads_frame f h))

theorem encode (cmd : EncCmd) : Statement (.encode cmd) := fun _ =>
  reads_operation 28 _ _ (Reads.last (g := fun x => Instr.encode x) (reads_cmd _))

theorem eHdr (t : List Byte) : Statement (.eHdr t) := fun _ =>
  reads_operation 29 _ _ (Reads.last (g := fun x => Instr.eHdr x) (reads_seq _))

theorem eTs (t : List Byte) (secs : BitVec 64) : Statement (.eTs t secs) := fun _ =>
  reads_operation 30 _ _ (Reads.andThen (reads_seq _) (Reads.last (g := fun x => Instr.eTs t x) (reads_u64 _)))

theorem ePoint (t : List Byte) (p : Nat) (lat : Q) (lon : Q) : Statement (.ePoint t p lat lon) := fun _ =>
  reads_operation 31 _ _ (Reads.andThen (reads_seq _) (Reads.andThen (reads_nat _) (Reads.andThen (reads_q _) (Reads.last (g := fun x => Instr.ePoint t p lat x) (reads_q _)))))

theorem eCtrl (t : List Byte) (c : Nat) (pumpAuto : Bool) (pumpActive : Bool) (mode : BoatMode) (motor1 : BitVec 16) (motor2 : BitVec 16) : Statement (.eCtrl t c pumpAuto pumpActive mode motor1 motor2) := fun _ =>
  reads_operation 32 _ _ (Reads.andThen (reads_seq _) (Reads.andThen (reads_nat _) (Reads.andThen (reads_bool _) (Reads.andThen (reads_bool _) (Reads.andThen (reads_boatMode _) (Reads.andThen (reads_u16 _) (Reads.last (g := fun x => Instr.eCtrl t c pumpAuto pumpActive mode motor1 x) (reads_u16 _))))))))

theorem eTail (t : List Byte) (o : Nat) : Statement (.eTail t o) := fun _ =>
  reads_operation 33 _ _ (Reads.andThen (reads_seq _) (Reads.last (g := fun x => Instr.eTail t x) (reads_nat _)))

theorem u8Unpack (b0 : Byte) : Statement (.u8Unpack b0) := fun _ =>
  reads_operation 34 _ _ (Reads.last (g := fun x => Instr.u8Unpack x) (reads_byte _))

theorem u8Pack (v : Int) : Statement (.u8Pack v) := fun _ =>
  reads_operation 35 _ _ (Reads.last (g := fun x => Instr.u8Pack x) (reads_int _))

theorem u16Unpack (b0 : Byte) (b1 : Byte) : Statement (.u16Unpack b0 b1) := fun _ =>
  reads_operation 36 _ _ (Reads.andThen (reads_byte _) (Reads.last (g := fun x => Instr.u16Unpack b0 x) (reads_byte _)))

theorem u16Pack (v : Int) : Statement (.u16Pack v) := fun _ =>
  reads_operation 37 _ _ (Reads.last (g := fun x => Instr.u16Pack x) (reads_int _))

theorem i16Unpack (b0 : Byte) (b1 : Byte) : Statement (.i16Unpack b0 b1) := fun _ =>
  reads_operation 38 _ _ (Reads.andThen (reads_byte _) (Reads.last (g := fun x => Instr.i16Unpack b0 x) (reads_byte _)))

theorem i64Pack (v : Int) : Statement (.i64Pack v) := fun _ =>
  reads_operation 39 _ _ (Reads.last (g := fun x => Instr.i64Pack x) (reads_int _))

theorem hlUnpack (h : Byte) (l : Byte) : Statement (.hlUnpack h l) := fun _ =>
  reads_operation 40 _ _ (Reads.andThen (reads_byte _) (Reads.last (g := fun x => Instr.hlUnpack h x) (reads_byte _)))

theorem hlPack (v : Q) : Statement (.hlPack v) := fun _ =>
  reads_operation 41 _ _ (Reads.last (g := fun x => Instr.hlPack x) (reads_q _))

theorem f32Unpack (b0 : Byte) (b1 : Byte) (b2 : Byte) (b3 : Byte) : Statement (.f32Unpack b0 b1 b2 b3) := fun _ =>
  reads_operation 42 _ _ (Reads.andThen (reads_byte _) (Reads.andThen (reads_byte _) (Reads.andThen (reads_byte _) (Reads.last (g := fun x => Instr.f32Unpack b0 b1 b2 x) (reads_byte _)))))

theorem f32Pack (q : Q) : Statement (.f32Pack q) := fun _ =>
  reads_operation 43 _ _ (Reads.last (g := fun x => Instr.f32Pack x) (reads_q _))

theorem sfUnpack (i : Byte) (b0 : Byte) (b1 : Byte) (b2 : Byte) (b3 : Byte) : Statement (.sfUnpack i b0 b1 b2 b3) := fun _ =>
  reads_operation 44 _ _ (Reads.andThen (reads_byte _) (Reads.andThen (reads_byte _) (Reads.andThen (reads_byte _) (Reads.andThen (reads_byte _) (Reads.last (g := fun x => Instr.sfUnpack i b0 b1 b2 x) (reads_byte _))))))

theorem sfPack (v : Q) : Statement (.sfPack v) := fun _ =>
  reads_operation 45 _ _ (Reads.last (g := fun x => Instr.sfPack x) (reads_q _))

theorem sbUnpack (i : Byte) (f : Byte) : Statement (.sbUnpack i f) := fun _ =>
  reads_operation 46 _ _ (Reads.andThen (reads_byte _) (Reads.last (g := fun x => Instr.sbUnpack i x) (reads_byte _)))

theorem ubUnpack (i : Byte) (f : Byte) : Statement (.ubUnpack i f) := fun _ =>
  reads_operation 47 _ _ (Reads.andThen (reads_byte _) (Reads.last (g := fun x => Instr.ubUnpack i x) (reads_byte _)))

theorem bool8Pack (v : Bool) : Statement (.bool8Pack v) := fun _ =>
  reads_operation 48 _ _ (Reads.last (g := fun x => Instr.bool8Pack x) (reads_bool _))

theorem clampMotor (v : Int) : Statement (.clampMotor v) := fun _ =>
  reads_operation 49 _ _ (Reads.last (g := fun x => Instr.clampMotor x) (reads_int _))

end Sys2Proof.Laws.RoundTrip
end

