-- ==== Sys2Proof/Tests/Slice0.lean ====
section
/-! SUPPORT. Tests. Expected results come from spec/95_test_vectors.md, named by its ids (T20, P6, …), or from the
formulas of the rules by hand; `witness_<obligation>` shows a state and operands that meet the hypotheses of that
statement, each clause at a boundary. -/

namespace Sys2Proof.Tests

set_option Elab.async false

open Machine

/-! ## Helpers -/

/-- After an RST, with `b` in the buffer. -/
def st (b : List Byte) : State := { State.reset with buf := b }

/-- Before the first RST. -/
def powerUp : State := { State.reset with rstDone := false }

def nextOf : Result → Option State
  | .next s => some s
  | .fault _ => none
  | .refused _ => none

def refusalOf : Result → Option Refusal
  | .next _ => none
  | .fault _ => none
  | .refused r => some r

/-- The value an operation without a port delivers. -/
def valueOf (i : Instr) : Option Value := (nextOf (exec i State.reset)).bind fun s => s.valueOut.head?

def t20 : List Byte :=
  [0xFF, 0xFE, 0xF5, 0x03, 0x4C, 0x04, 0x90, 0x01, 0x64, 0x00, 0xC8, 0x00, 0x23, 0x00, 0x32, 0x00,
   0x17, 0x2D, 0x41, 0x14, 0x0C, 0x00, 0xD9, 0x02, 0x2C, 0x01, 0x12, 0x50, 0xDC, 0x05, 0xAA, 0x55] ++
  [0x1F, 0x2C, 0xF2, 0x6B, 0x3E, 0x79, 0xD7, 0xA3, 0xF0, 0x3E, 0xD3, 0x19, 0x03, 0x4B, 0x57, 0x00,
   0x01, 0xFF, 0xFE, 0, 0, 0, 0, 0, 0, 0, 0, 0, 0, 0, 0, 0, 0]

def t21 : List Byte := [0xFF, 0xFE] ++ List.replicate 63 0xFF

def t22 : List Byte := [0xFF, 0xFE] ++ List.replicate 63 0x00

def t23 : List Byte :=
  [0xFF, 0xFE, 0xA3, 0x02, 0x49, 0x05, 0, 0, 0, 0, 0, 0, 0, 0, 0, 0, 0x18, 0xFF, 0x64, 0x64, 0, 0, 0, 0, 0, 0,
   0xFF, 0x63, 0x18, 0xFC, 0, 0] ++
  [0, 0, 0, 0, 0xBF, 0x96, 0x00, 0x00, 0xC0, 0x7F, 0x00, 0x32, 0xFF, 0xFF, 0xFF, 0xFF, 0x02] ++ List.replicate 16 0

/-- The source's home point. -/
def home : PointIn := { valid := true, lat := 3123 / 100, lon := 12147 / 100 }

def invalidPoint : PointIn := { valid := false, lat := 0, lon := 0 }

/-- T30's inputs. -/
def cmd30 : EncCmd :=
  { home := home, ts := { valid := true, secs := 1704067200 }, wps := [], pumpAuto := false, pumpActive := false,
    mode := 0, motor1 := 1013, motor2 := 1013 }

def frame30 : List Byte :=
  [0xFF, 0xFE, 0x80, 0x00, 0x92, 0x65, 0x00, 0x00, 0x00, 0x00, 0x79, 0xD7, 0xA3, 0xF0, 0x3E, 0x1F, 0x1F, 0x85, 0x6B,
   0x3E, 0x00, 0x00, 0x00, 0xF5, 0x03, 0xF5, 0x03] ++ List.replicate 14 0

/-- P6's inputs. -/
def cmd6 : EncCmd :=
  { home := home, ts := { valid := true, secs := 0 },
    wps := [⟨true, 3124 / 100, 12148 / 100⟩, invalidPoint, ⟨true, 91, 10⟩, ⟨true, -338688 / 10000, 1512093 / 10000⟩,
      ⟨true, 10, 1805 / 10⟩, ⟨true, -1 / 2, -1 / 4⟩],
    pumpAuto := false, pumpActive := true, mode := 2, motor1 := 675, motor2 := 1353 }

def frame6 : List Byte :=
  [0xFF, 0xFE, 0, 0, 0, 0, 0, 0, 0, 0, 0x79, 0xD7, 0xA3, 0xF0, 0x3E, 0x1F, 0x1F, 0x85, 0x6B, 0x3E, 0x79, 0x8F, 0xC2,
   0xF5, 0x3E, 0x1F, 0x8F, 0xC2, 0x75, 0x3E] ++
  [0x97, 0xBD, 0x52, 0x56, 0x3E, 0xDF, 0xAD, 0x69, 0x5E, 0xBF, 0x00, 0x00, 0x00, 0x80, 0xBE, 0x00, 0x00, 0x00, 0x00,
   0xBF, 0x00, 0x01, 0x02, 0xA3, 0x02, 0x49, 0x05] ++ List.replicate 14 0

/-- A list of 52 waypoints on the equator. -/
def cmd52 : EncCmd := { cmd30 with wps := List.replicate 52 ⟨true, 0, 0⟩ }

/-! ## WellFormed: each check refuses an ill-formed term -/

theorem test_wf_frame : ∀ i ∈ [Instr.decode [], .xM1 [0], .xM2 [], .xCo2 [], .xCh2o [], .xTvoc [], .xPm25 [],
    .xPm10 [], .xAirT [], .xAirH [], .xTurb [], .xPh [], .xTds [], .xWatT [], .xWlvl [], .xLat [], .xLon [], .xHdg [],
    .xSpd [], .xBat [], .xMode (0 :: t20)], i.wellFormed = false := by decide

theorem test_wf_segment : ∀ i ∈ [Instr.eHdr [0], .eTs (List.replicate 9 0) 0, .ePoint (List.replicate 10 0) 1 0 0,
    .eCtrl (List.replicate 6 0) 0 true true .auto 0 0, .eTail (List.replicate 20 0) 7],
    i.wellFormed = false := by decide

theorem test_wf_domain : ∀ i ∈ [Instr.u8Pack 256, .u8Pack (-1), .u16Pack 65536, .u16Pack (-1), .i64Pack (2 ^ 63),
    .i64Pack (-2 ^ 63 - 1), .hlPack 256, .hlPack (-1 / 100), .hlPack (1 / 1000), .f32Pack (2 ^ 128 - 2 ^ 103),
    .f32Pack (2 ^ 103 - 2 ^ 128), .clampMotor 65536, .clampMotor (-1)], i.wellFormed = false := by decide +kernel

theorem test_wf_bounds : ∀ i ∈ [Instr.decode t20, .xM1 t21, .eHdr [0, 0], .eTs (List.replicate 10 0) 0,
    .ePoint (List.replicate 11 0) 1 0 0, .eCtrl (List.replicate 7 0) 0 true true .auto 0 0,
    .eTail (List.replicate 21 0) 7, .u8Pack 255, .u16Pack 65535, .i64Pack (-2 ^ 63), .i64Pack (2 ^ 63 - 1),
    .hlPack (25599 / 100), .f32Pack (2 ^ 128 - 2 ^ 103 - 1), .clampMotor 65535], i.wellFormed = true := by
  decide +kernel

/-! ## Decoding: the framer's head test (30_encoding.md R67), then the byte form (log 1), a word for every row -/

theorem test_head : decodeHead [] = .fIdle ∧ decodeHead [0xFF] = .fIdle ∧ decodeHead [0xFF, 0xFE] = .fWait ∧
    decodeHead [0xFE, 0xFF] = .fDrop ∧ decodeHead [0xFF, 0xFF] = .fDrop ∧ decodeHead t20 = .fEmit ∧
    decodeHead (t20.take 64) = .fWait := by decide

theorem test_head_word : decodeTableWord 16 0xFFFE = some .fWait ∧ decodeTableWord 16 0xFEFF = some .fDrop := by decide

theorem test_decode_framer : decode [0] = .ok (.rst, []) ∧ decode [1, 0xAB] = .ok (.feedb 0xAB, []) ∧
    decode [2, 2, 0x12, 0x34, 9] = .ok (.feed [0x12, 0x34], [9]) ∧ decode [3] = .ok (.fIdle, []) ∧
    decode [4] = .ok (.fDrop, []) ∧ decode [5] = .ok (.fWait, []) ∧ decode [6] = .ok (.fEmit, []) := by decide

theorem test_decode_telemetry : decode (7 :: t20) = .ok (.decode t20, []) ∧ decode (8 :: t20) = .ok (.xM1 t20, []) ∧
    decode (9 :: t20) = .ok (.xM2 t20, []) ∧ decode (10 :: t20) = .ok (.xCo2 t20, []) ∧
    decode (11 :: t20) = .ok (.xCh2o t20, []) ∧ decode (12 :: t20) = .ok (.xTvoc t20, []) ∧
    decode (13 :: t20) = .ok (.xPm25 t20, []) ∧ decode (14 :: t20) = .ok (.xPm10 t20, []) ∧
    decode (15 :: t20) = .ok (.xAirT t20, []) ∧ decode (16 :: t20) = .ok (.xAirH t20, []) := by decide

theorem test_decode_telemetry2 : decode (17 :: t20) = .ok (.xTurb t20, []) ∧
    decode (18 :: t20) = .ok (.xPh t20, []) ∧ decode (19 :: t20) = .ok (.xTds t20, []) ∧
    decode (20 :: t20) = .ok (.xWatT t20, []) ∧ decode (21 :: t20) = .ok (.xWlvl t20, []) := by decide

theorem test_decode_telemetry3 : decode (22 :: t20) = .ok (.xLat t20, []) ∧
    decode (23 :: t20) = .ok (.xLon t20, []) ∧ decode (24 :: t20) = .ok (.xHdg t20, []) ∧
    decode (25 :: t20) = .ok (.xSpd t20, []) ∧ decode (26 :: t20) = .ok (.xBat t20, []) ∧
    decode (27 :: t20) = .ok (.xMode t20, []) := by decide

/-- ENCODE with the home point (1/2, -3), seconds 0x0807060504030201, one invalid waypoint, mode 2, motors 675, 1353. -/
theorem test_decode_encode :
    decode [28, 1, 0, 1, 1, 1, 3, 0, 1, 1, 2, 3, 4, 5, 6, 7, 8, 1, 0, 0, 0, 0, 0, 0, 0, 1, 0, 2, 0xA3, 0x02, 0x49, 0x05] =
      .ok (.encode ⟨⟨true, 1 / 2, -3⟩, ⟨true, 0x0807060504030201⟩, [⟨false, 0, 0⟩], true, false, 2, 675, 1353⟩, []) := by decide +kernel

theorem test_decode_segments : decode [29, 2, 7, 8] = .ok (.eHdr [7, 8], []) ∧
    decode [30, 1, 7, 1, 2, 3, 4, 5, 6, 7, 8] = .ok (.eTs [7] 0x0807060504030201, []) ∧
    decode [31, 1, 7, 10, 0, 90, 0, 1, 1, 1] = .ok (.ePoint [7] 10 90 (-1 / 2), []) ∧
    decode [32, 1, 7, 0x94, 0x0A, 1, 0, 2, 0xA3, 0x02, 0x49, 0x05] =
      .ok (.eCtrl [7] 1300 true false .positionHold 675 1353, []) ∧
    decode [33, 1, 7, 27] = .ok (.eTail [7] 27, []) := by decide +kernel

theorem test_decode_numeric : decode [34, 9] = .ok (.u8Unpack 9, []) ∧ decode [35, 0, 9] = .ok (.u8Pack 9, []) ∧
    decode [36, 1, 2] = .ok (.u16Unpack 1 2, []) ∧ decode [37, 0, 0xF5, 0x07] = .ok (.u16Pack 1013, []) ∧
    decode [38, 1, 2] = .ok (.i16Unpack 1 2, []) ∧ decode [39, 1, 1] = .ok (.i64Pack (-1), []) ∧
    decode [40, 1, 2] = .ok (.hlUnpack 1 2, []) ∧ decode [41, 0, 3, 1] = .ok (.hlPack (3 / 2), []) := by decide +kernel

theorem test_decode_numeric2 : decode [42, 1, 2, 3, 4] = .ok (.f32Unpack 1 2 3 4, []) ∧
    decode [43, 0, 1, 3] = .ok (.f32Pack (1 / 4), []) ∧ decode [44, 1, 2, 3, 4, 5] = .ok (.sfUnpack 1 2 3 4 5, []) ∧
    decode [45, 1, 1, 1] = .ok (.sfPack (-1 / 2), []) ∧ decode [46, 1, 2] = .ok (.sbUnpack 1 2, []) ∧
    decode [47, 1, 2] = .ok (.ubUnpack 1 2, []) ∧ decode [48, 1] = .ok (.bool8Pack true, []) ∧
    decode [49, 0, 5] = .ok (.clampMotor 5, []) := by decide +kernel

theorem test_decode_rejects : decode [] = .error .truncated ∧ decode [50] = .error .noSuchOperation ∧
    decode [2, 3, 0] = .error .truncated ∧ decode [2, 0x80, 0x00] = .error .badNumber ∧
    decode [48, 2] = .error .badChoice ∧ decode [35, 1, 0] = .error .badNumber ∧
    decode [45, 0, 2, 3] = .error .badRational := by decide

/-! ## The framer -/

theorem test_rst : (nextOf (exec .rst { st [0xFF, 0xFE, 1] with rstDone := false })) = some (st []) := by decide +kernel

/-- P4b: row 1, row 2b, row 2b, row 2a. -/
theorem test_feedb_rows : (nextOf (exec (.feedb 0x00) (st []))).map State.buf = some [0x00] ∧
    (nextOf (exec (.feedb 0xFF) (st [0x00]))).map State.buf = some [0xFF] ∧
    (nextOf (exec (.feedb 0xFF) (st [0xFF]))).map State.buf = some [0xFF] ∧
    (nextOf (exec (.feedb 0xFE) (st [0xFF]))).map State.buf = some [0xFF, 0xFE] := by decide

/-- P4b: row 4. -/
theorem test_feedb_emits : (nextOf (exec (.feedb 0x22) (st ([0xFF, 0xFE] ++ List.replicate 62 0x11)))).map
    (fun s => (s.buf, s.frameOut)) = some ([], [[0xFF, 0xFE] ++ List.replicate 62 0x11 ++ [0x22]]) := by decide +kernel

/-- P3: two frames and a stray byte in one feed. -/
theorem test_feed_two_frames : (nextOf (exec (.feed (t20 ++ t22 ++ [0xFF])) (st []))).map
    (fun s => (s.buf, s.frameOut)) = some ([0xFF], [t20, t22]) := by decide +kernel

/-- P3b: noise with marker look-alikes. -/
theorem test_feed_noise : (nextOf (exec (.feed ([0x12, 0xFF, 0xFF, 0x00, 0xFE] ++ t22)) (st []))).map
    (fun s => (s.buf, s.frameOut)) = some ([], [t22]) := by decide +kernel

theorem test_micro_idle_wait : nextOf (exec .fIdle (st [0xFF])) = some (st [0xFF]) ∧
    nextOf (exec .fWait (st (t20.take 64))) = some (st (t20.take 64)) := by decide +kernel

theorem test_micro_drop : nextOf (exec .fDrop (st [0xFE, 0xFF, 3])) = some (st [0xFF, 3]) ∧
    refusalOf (exec .fDrop (st [0xFF, 0xFE])) = some .notSelected := by decide +kernel

theorem test_micro_emit : (nextOf (exec .fEmit (st (t20 ++ [7])))).map
    (fun s => (s.buf, s.frameOut, s.readingsOut)) = some ([7], [t20], [decodeFrame t20]) := by decide +kernel

/-- R63: in table order the fields fill the offsets 2..29, then 32..48, without a gap or an overlap. -/
theorem test_fields_tile : Params.rxFields.map (·.off) =
      2 :: (Params.rxFields.take 13).map (·.stop) ++ 32 :: ((Params.rxFields.drop 14).take 5).map (·.stop) ∧
    (Params.rxFields.drop 13).head?.map (·.stop) = some 30 ∧ Params.rxFields.getLast?.map (·.stop) = some 49 ∧
    Params.rxFields.length = 20 := by decide

/-- R76: 41 bytes with no waypoint, 541 with 50; R81: the segments' offsets. -/
theorem test_send_offsets : Params.txMinLen = 41 ∧ Params.txMaxLen = 541 ∧ Params.offHome = 10 ∧
    Params.offWaypoint 1 = 20 ∧ Params.offCtrl 3 = 50 ∧ Params.offTail 3 = 57 ∧ Params.pointLen = 10 := by decide

/-! ## The decoder (T20, T21, T23) -/

theorem test_decode_20 : (nextOf (exec (.decode t20) (st [0xFF]))).map (fun s => (s.buf, s.frameOut, s.readingsOut)) =
    some ([0xFF], [],
      [{ sensor := { co2 := 400, ch2oRaw := 100, ch2o := 307 / 2500, tvocRaw := 200, tvoc := 3 / 4, pm25 := 35, pm10 := 50,
                     airTempHi := 23, airTempLo := 45, airTemp := 2345 / 100, airHumHi := 65, airHumLo := 20,
                     airHum := 652 / 10, turbidity := 12, phRaw := 729, ph := 729 / 100, tds := 300, waterTempHi := 18,
                     waterTempLo := 80, waterTemp := 188 / 10, waterLevelRaw := 1500, waterLevel := 3 / 2 },
         vessel := { latInt := 31, latFrac := 0x3E6BF22C, latitude := .fin (523959435 / 16777216), lonInt := 121,
                     lonFrac := 0x3EF0A3D7, longitude := .fin (4075856855 / 33554432), hdgInt := -45, hdgFrac := 25,
                     heading := -4525 / 100, spdInt := 3, spdFrac := 75, speed := 375 / 100 },
         device := { motor1 := 1013, motor2 := 1100, battery := 87, mode := 1 } }]) := by decide +kernel

theorem test_x_device : valueOf (.xM1 t20) = some (.u16 1013) ∧ valueOf (.xM2 t20) = some (.u16 1100) ∧
    valueOf (.xBat t23) = some (.u16 65535) ∧ valueOf (.xMode t23) = some (.u8 2) := by decide +kernel

theorem test_x_unsigned : valueOf (.xCo2 t20) = some (.u16 400) ∧ valueOf (.xPm25 t20) = some (.u16 35) ∧
    valueOf (.xPm10 t20) = some (.u16 50) ∧ valueOf (.xTurb t20) = some (.u16 12) ∧
    valueOf (.xTds t20) = some (.u16 300) := by decide +kernel

theorem test_x_scaled : valueOf (.xCh2o t21) = some (.rawU16 65535 (4023849 / 50000)) ∧
    valueOf (.xTvoc t21) = some (.rawU16 65535 (39321 / 160)) ∧ valueOf (.xPh t20) = some (.rawU16 729 (729 / 100)) ∧
    valueOf (.xWlvl t23) = some (.rawInt (-1000) (-1)) := by decide +kernel

theorem test_x_high_low : valueOf (.xAirT t23) = some (.pair 24 255 (2655 / 100)) ∧
    valueOf (.xAirH t23) = some (.pair 100 100 101) ∧ valueOf (.xWatT t23) = some (.pair 255 99 (25599 / 100)) := by
  decide +kernel

theorem test_x_vessel : valueOf (.xLat t23) = some (.coord 0 0xBF000000 (.fin (-1 / 2))) ∧
    valueOf (.xLon t23) = some (.coord (-106) 0x7FC00000 .nan) ∧ valueOf (.xHdg t23) = some (.signedPair 0 50 (1 / 2)) ∧
    valueOf (.xHdg t20) = some (.signedPair (-45) 25 (-4525 / 100)) ∧
    valueOf (.xSpd t20) = some (.pair 3 75 (375 / 100)) := by decide +kernel

/-! ## The encoder (T30, P5, P6, P8, P9) -/

theorem test_encode_30 : (nextOf (exec (.encode cmd30) (st [0xFF]))).map (fun s => (s.buf, s.encResult)) =
    some ([0xFF], [.ok frame30 0 [] 0]) := by decide +kernel

theorem test_encode_6 : (nextOf (exec (.encode cmd6) (st []))).map State.encResult =
    some [.ok frame6 3 [2, 3, 5] 0] := by decide +kernel

theorem test_encode_errors :
    [{ cmd30 with home := invalidPoint, ts := ⟨false, 0⟩, mode := 3 }, { cmd30 with home := ⟨true, 91, 0⟩ },
      { cmd30 with home := ⟨true, 0, 180000001 / 1000000⟩ }, { cmd30 with ts := ⟨false, 0⟩, mode := 3 },
      { cmd30 with mode := 3 }].map firstError =
    [some .homeInvalid, some .homeInvalid, some .homeInvalid, some .timestampInvalid, some .badMode] := by decide +kernel

theorem test_encode_cap : (nextOf (exec (.encode cmd52) (st []))).map (fun s => s.encResult.map fun
    | .ok bytes n rej tr => (bytes.length, n, rej, tr)
    | .err _ => (0, 0, [], 0)) = some [(541, 50, [], 2)] := by decide +kernel

theorem test_e_hdr : valueOf (.eHdr [1, 2, 3]) = some (.bytes [0xFF, 0xFE, 3]) := by decide +kernel

theorem test_e_ts : valueOf (.eTs (List.replicate 11 7) 1704067200) =
    some (.bytes [7, 7, 0x80, 0x00, 0x92, 0x65, 0, 0, 0, 0, 7]) := by decide +kernel

/-- P6's entry 4, longitude first. -/
theorem test_e_point : valueOf (.ePoint (List.replicate 12 7) 1 (-338688 / 10000) (1512093 / 10000)) =
    some (.bytes [7, 0x97, 0xBD, 0x52, 0x56, 0x3E, 0xDF, 0xAD, 0x69, 0x5E, 0xBF, 7]) := by decide +kernel

/-- P5's control block. -/
theorem test_e_ctrl : valueOf (.eCtrl (List.replicate 9 7) 1 true false .auto 1500 600) =
    some (.bytes [7, 0x01, 0x00, 0x01, 0x49, 0x05, 0xA3, 0x02, 7]) := by decide +kernel

theorem test_e_tail : valueOf (.eTail (List.replicate 16 7) 1) =
    some (.bytes ([7] ++ List.replicate 14 0 ++ [7])) := by decide +kernel

/-! ## The NumericCodec (95_test_vectors.md section 2) -/

theorem test_u8_bool : valueOf (.u8Unpack 0xFF) = some (.u8 255) ∧ valueOf (.u8Pack 254) = some (.bytes [0xFE]) ∧
    valueOf (.bool8Pack true) = some (.bytes [1]) ∧ valueOf (.bool8Pack false) = some (.bytes [0]) := by decide +kernel

theorem test_u16 : valueOf (.u16Unpack 0xFE 0xFF) = some (.u16 65534) ∧
    valueOf (.u16Pack 1013) = some (.bytes [0xF5, 0x03]) := by decide +kernel

theorem test_i16 : valueOf (.i16Unpack 0x18 0xFC) = some (.int (-1000)) ∧
    valueOf (.i16Unpack 0x00 0x80) = some (.int (-32768)) ∧ valueOf (.i16Unpack 0xFF 0x7F) = some (.int 32767) := by
  decide +kernel

theorem test_i64 : valueOf (.i64Pack 1704067200) = some (.bytes [0x80, 0x00, 0x92, 0x65, 0, 0, 0, 0]) ∧
    valueOf (.i64Pack (-1)) = some (.bytes (List.replicate 8 0xFF)) := by decide +kernel

theorem test_hl : valueOf (.hlUnpack 0x18 0xFF) = some (.q (2655 / 100)) ∧
    valueOf (.hlPack (2345 / 100)) = some (.bytes [0x17, 0x2D]) := by decide +kernel

theorem test_f32_unpack : valueOf (.f32Unpack 0x2C 0xF2 0x6B 0x3E) = some (.xreal (.fin (15462956 / 67108864))) ∧
    valueOf (.f32Unpack 1 0 0 0) = some (.xreal (.fin (1 / 2 ^ 149))) ∧
    valueOf (.f32Unpack 0 0 0x80 0xFF) = some (.xreal .negInf) ∧
    valueOf (.f32Unpack 0 0 0xC0 0x7F) = some (.xreal .nan) := by decide +kernel

theorem test_f32_pack : valueOf (.f32Pack (1 / 3)) = some (.bytes [0xAB, 0xAA, 0xAA, 0x3E]) ∧
    valueOf (.f32Pack (-47 / 100)) = some (.bytes [0xD7, 0xA3, 0xF0, 0xBE]) ∧
    valueOf (.f32Pack (1 / 1000000)) = some (.bytes [0xBD, 0x37, 0x86, 0x35]) ∧
    valueOf (.f32Pack (999999999 / 1000000000)) = some (.bytes [0, 0, 0x80, 0x3F]) := by decide +kernel

theorem test_sf_unpack : valueOf (.sfUnpack 0x1F 0x00 0x00 0x80 0xBE) = some (.xreal (.fin (3075 / 100))) ∧
    valueOf (.sfUnpack 0xFF 0x00 0x00 0x00 0xBF) = some (.xreal (.fin (-3 / 2))) ∧
    valueOf (.sfUnpack 0x05 0x00 0x00 0x80 0x7F) = some (.xreal .posInf) := by decide +kernel

theorem test_sf_pack : valueOf (.sfPack (-338688 / 10000)) = some (.bytes [0xDF, 0xAD, 0x69, 0x5E, 0xBF]) ∧
    valueOf (.sfPack (-1 / 4)) = some (.bytes [0x00, 0x00, 0x00, 0x80, 0xBE]) ∧
    valueOf (.sfPack (1512093 / 10000)) = some (.bytes [0x97, 0xBD, 0x52, 0x56, 0x3E]) := by decide +kernel

theorem test_sb_ub : valueOf (.sbUnpack 0xD3 0x19) = some (.q (-4525 / 100)) ∧
    valueOf (.sbUnpack 0x00 0x32) = some (.q (1 / 2)) ∧ valueOf (.sbUnpack 0x80 0xFF) = some (.q (-13055 / 100)) ∧
    valueOf (.ubUnpack 0x03 0x4B) = some (.q (375 / 100)) := by decide +kernel

theorem test_clamp : [0, 674, 675, 1013, 1353, 1354, 65535].map (fun v => valueOf (.clampMotor v)) =
    [675, 675, 675, 1013, 1353, 1353, 1353].map (fun v => some (.u16 v)) := by decide +kernel

/-! ## Steps -/

/-- A step runs the operation at the front of the input and moves past it. -/
theorem test_step : (nextOf (step { st [] with input := [1, 0xFF, 1, 0xFE] })).map (fun s => (s.buf, s.input)) =
    some ([0xFF], [1, 0xFE]) := by decide

theorem test_step_idle : nextOf (step State.reset) = some State.reset ∧ nextOf (step powerUp) = some powerUp ∧
    refusalOf (step { st [] with input := [50] }) = some (.badTransaction .noSuchOperation) := by decide +kernel

theorem test_fetch_word : nextOf (step (State.reset.withFetchWord 16 0xFFFE)) = some (st [0xFF, 0xFE]) ∧
    nextOf (step (State.reset.withFetchWord 16 0x1234)) = some (st [0x34]) ∧
    nextOf (step (State.reset.withFetchWord 8 0)) = some State.reset := by decide +kernel

/-! ## Witnesses: a state and operands for the hypotheses of each statement -/

/-- A frame after garbage in which no `FF` is followed by `FE`. -/
def garbage : List Byte := [0x00, 0xFE, 0xFF, 0xFF]

theorem witness_RxIsRefusedBeforeFirstRst : powerUp.rstDone = false ∧ t20.length = 65 := by decide

theorem witness_after_rst : (st []).rstDone = true ∧ bufferSettled (st []).buf = true := by decide

theorem witness_FeedIsReferenceFeed : (st (t20.take 64)).rstDone = true ∧
    bufferSettled (st (t20.take 64)).buf = true ∧ bufferSettled (st [0x00]).buf = true := by decide

/-- Each row, the third with both ways a pair differs from `FF FE`, the fourth at 0 and 61 bytes. -/
theorem witness_FeedbTransitionTable : (st []).buf = [] ∧ (st [0xFF]).buf = [0xFF] ∧
    ¬ ((0xFF : Byte) = 0xFF ∧ (0xFF : Byte) = 0xFE) ∧ ¬ ((0x00 : Byte) = 0xFF ∧ (0xFE : Byte) = 0xFE) ∧
    (st [0xFF, 0xFE]).buf = 0xFF :: 0xFE :: [] ∧ ([] : List Byte).length ≤ 61 ∧
    (st (t20.take 63)).buf = 0xFF :: 0xFE :: (t20.take 63).drop 2 ∧ ((t20.take 63).drop 2).length = 61 ∧
    (st (t20.take 64)).buf = 0xFF :: 0xFE :: (t20.take 64).drop 2 ∧ ((t20.take 64).drop 2).length = 62 := by decide

theorem test_row3_row4 :
    (nextOf (exec (.feedb 7) (st (t20.take 63)))).map (fun s => (s.buf.length, s.frameOut.length)) = some (64, 0) ∧
    (nextOf (exec (.feedb 7) (st (t20.take 64)))).map (fun s => (s.buf.length, s.frameOut.length)) = some (0, 1) := by
  decide +kernel

theorem witness_GarbageIsDroppedBeforeFrame : (st []).rstDone = true ∧ (st []).buf = [] ∧
    ¬ [0xFF, 0xFE] <:+: garbage ∧ validFrame t20 = true := by decide

theorem witness_SplitFrameIsEmittedOnce : (st []).buf = [] ∧ validFrame (t20.take 64 ++ [0x00]) = true ∧
    ([0x00] : List Byte) ≠ [] ∧ validFrame ([] ++ t20) = true := by decide

theorem witness_SameFrameTwiceDecodesTwice : (st []).rstDone = true ∧ (st []).buf = [] ∧ validFrame t20 = true := by decide

theorem witness_MicroStepEffects : (st [0xFF]).buf.length < 2 ∧ (st [0xFE, 0xFE]).buf = 0xFE :: 0xFE :: [] ∧
    ¬ ((0xFE : Byte) = 0xFF ∧ (0xFE : Byte) = 0xFE) ∧ (st (t20.take 64)).buf = 0xFF :: 0xFE :: (t20.take 64).drop 2 ∧
    ((t20.take 64).drop 2).length < 63 ∧ (st t20).buf = 0xFF :: 0xFE :: (t20.drop 2 ++ []) ∧
    (t20.drop 2).length = 63 := by decide

theorem witness_ExactlyOneMicroStepSelected : (st t20).rstDone = true ∧
    Instr.fEmit ∈ [Instr.fIdle, .fDrop, .fWait, .fEmit] ∧ Instr.fEmit = decodeHead (st t20).buf ∧
    Instr.fDrop ≠ decodeHead (st t20).buf := by decide

theorem witness_HeadTestSelectsMicroStep : (0xFF : Byte).toNat * 256 + (0xFE : Byte).toNat = 0xFFFE ∧
    ((t20.take 64).drop 2).length < 63 ∧ 63 ≤ (t20.drop 2).length ∧
    (0xFF : Byte).toNat * 256 + (0xFF : Byte).toNat ≠ 0xFFFE := by decide

/-- The last byte of a frame pending. -/
theorem witness_StepKeepsInvariant : ∃ s s' : State, s.Inv ∧ step s = .next s' ∧ s'.frameOut = [t20] :=
  ⟨{ st (t20.take 64) with input := [1, 0x00] }, _, ⟨fun _ => by decide, by decide, by decide⟩, rfl, by decide⟩

theorem witness_IdleStepChangesNothing : ∃ s : State, s.Inv ∧ s.input = [] ∧ s.buf = t20.take 64 :=
  ⟨st (t20.take 64), ⟨fun _ => by decide, by decide, by decide⟩, rfl, rfl⟩

theorem witness_StepRunsTheDecodedOperation :
    decode { st [] with input := [1, 0xFF, 0] }.input = .ok (.feedb 0xFF, [0]) ∧
    (Instr.feedb 0xFF).wellFormed = true ∧
    { st [] with input := [1, 0xFF, 0] }.input = encode (.feedb 0xFF) ++ [0] ∧
    { st [] with input := [50] }.input ≠ [] ∧
    decode { st [] with input := [50] }.input = .error .noSuchOperation ∧ (st []).input = [] := by decide

theorem witness_WellFormedOperationsComplete : (Instr.fDrop).wellFormed = true ∧ (st [0, 0]).rstDone = true ∧
    Instr.fDrop = decodeHead (st [0, 0]).buf ∧ (Instr.decode t20).wellFormed = true := by decide

/-- An operation that changes each part. -/
theorem witness_OnlyTheirOperationsChangeEachPart :
    (nextOf (exec (.feedb 0xFF) (st []))).map State.buf = some [0xFF] ∧
    (nextOf (exec (.feedb 0x00) (st (t22.take 64)))).map (fun s => (s.frameOut, s.readingsOut)) =
      some ([t22], [decodeFrame t22]) ∧
    (nextOf (exec (.encode { cmd30 with mode := 3 }) (st []))).map State.encResult = some [.err .badMode] ∧
    (nextOf (exec (.u8Unpack 7) (st []))).map State.valueOut = some [.u8 7] ∧
    (nextOf (exec .rst powerUp)).map State.rstDone = some true ∧ powerUp.rstDone = false := by decide +kernel

theorem witness_LinkOpenHasNoEffect : (∃ t, exec (.feedb 0xFF) (st []) = .next t) ∧
    exec .fDrop (st []) = .refused .notSelected := ⟨⟨_, rfl⟩, by rfl⟩

theorem witness_DecodeReadsBackEncode : (Instr.ePoint (List.replicate 12 7) 2 90 (-180)).wellFormed = true ∧
    (Instr.clampMotor 65535).wellFormed = true := by decide

theorem witness_EncodeWritesBackDecode : decode [2, 1, 7, 9] = .ok (.feed [7], [9]) := by decide

theorem witness_frame : t20.length = 65 ∧ t21.length = 65 ∧ t23.length = 65 := by decide

theorem witness_HeadingSpeedModeFields : (byteAt t23 42).toNat < 128 ∧ 128 ≤ (byteAt t20 42).toNat := by decide

theorem witness_DecodeReadsOnlyItsFields : ∃ f g : List Byte, f.length = 65 ∧ g.length = 65 ∧ f ≠ g ∧
    ∀ k, (2 ≤ k ∧ k ≤ 29) ∨ (32 ≤ k ∧ k ≤ 48) → byteAt f k = byteAt g k := by
  refine ⟨t20, [0, 0] ++ (t20.take 49).drop 2 ++ List.replicate 16 9, by decide, by decide, by decide, ?_⟩
  have h : ∀ k < 49, 2 ≤ k → byteAt t20 k = byteAt ([0, 0] ++ (t20.take 49).drop 2 ++ List.replicate 16 9) k := by decide
  exact fun k hk => h k (by omega) (by omega)

theorem witness_WrongFrameLengthIsRefused : (t20.take 64).length ≠ 65 ∧ (0 :: t20).length ≠ 65 := by decide

/-- What the clauses ask of the home point. -/
def homeOk (c : EncCmd) : Prop :=
  c.home.valid = true ∧ -90 ≤ c.home.lat ∧ c.home.lat ≤ 90 ∧ -180 ≤ c.home.lon ∧ c.home.lon ≤ 180

/-- A home point invalid, or just out of range, or on its bounds; then each later check failing. -/
theorem witness_EncodeErrorsInOrder : ¬ homeOk { cmd30 with home := invalidPoint } ∧
    ¬ homeOk { cmd30 with home := ⟨true, 0, 180000001 / 1000000⟩ } ∧ homeOk { cmd30 with home := ⟨true, 90, -180⟩ } ∧
    (homeOk { cmd30 with ts := ⟨false, 0⟩ } ∧ { cmd30 with ts := ⟨false, 0⟩ }.ts.valid = false) ∧
    (homeOk { cmd30 with mode := 3 } ∧ { cmd30 with mode := 3 }.ts.valid = true ∧ { cmd30 with mode := 3 }.mode = 3) := by
  unfold homeOk
  decide +kernel

theorem witness_EncodeBuildsTheFrame : usable cmd6.home = true ∧ cmd6.ts.valid = true ∧ cmd6.mode ≠ 3 ∧
    (cmd6.wps.take 50).filter usable ≠ [] := by decide +kernel

theorem witness_WaypointCap : usable cmd52.home = true ∧ cmd52.ts.valid = true ∧ cmd52.mode ≠ 3 ∧
    50 ≤ cmd52.wps.length ∧ ∀ w ∈ cmd52.wps.take 50, usable w = true := by decide +kernel

theorem witness_SentMotorsAreClamped : nextOf (exec (.encode cmd6) (st [])) =
    some { st [] with encResult := (st []).encResult ++ [.ok frame6 3 [2, 3, 5] 0] } ∧
    675 ≤ cmd6.motor1.toNat ∧ cmd6.motor2.toNat ≤ 1353 := by decide +kernel

theorem witness_InvalidInputsAreNotRead :
    (invalidPoint = ⟨false, 5, 5⟩ ∨ (invalidPoint.valid = false ∧ (⟨false, 5, 5⟩ : PointIn).valid = false)) ∧
    List.Forall₂ (fun v w : PointIn => v = w ∨ (v.valid = false ∧ w.valid = false)) [home, invalidPoint]
      [home, ⟨false, 5, 5⟩] :=
  ⟨.inr ⟨rfl, rfl⟩, .cons (.inl rfl) (.cons (.inr ⟨rfl, rfl⟩) .nil)⟩

/-- A segment of the right length after a front of the right length, at the smallest and at another offset. -/
theorem witness_SegmentWritersReplaceTheirBytes : ([] : List Byte).length = 0 ∧ (List.replicate 2 (0 : Byte)).length = 2 ∧
    (List.replicate 8 (0 : Byte)).length = 8 ∧ (List.replicate 10 (0 : Byte)).length = 10 ∧
    (List.replicate 7 (0 : Byte)).length = 7 ∧ (List.replicate 14 (0 : Byte)).length = 14 := by decide

theorem witness_WriteOutsideFrameIsRefused : (List.replicate 1 (0 : Byte)).length < 2 ∧
    (List.replicate 9 (0 : Byte)).length < 10 ∧ (List.replicate 19 (0 : Byte)).length < 10 + 10 ∧
    (List.replicate 26 (0 : Byte)).length < 20 + 7 ∧ (List.replicate 40 (0 : Byte)).length < 27 + 14 := by decide

theorem witness_numbers : ((0 : Int) ≤ 0 ∧ (0 : Int) ≤ 255 ∧ (255 : Int) ≤ 255) ∧ (65535 : Int) ≤ 65535 ∧
    (-(2 ^ 63) : Int) ≤ -(2 ^ 63) ∧ (2 ^ 63 - 1 : Int) ≤ 2 ^ 63 - 1 := by decide

theorem witness_HighLowScheme : (0 : Q) ≤ 0 ∧ (0 : Q) ≤ 25599 / 100 ∧ (25599 / 100 : Q) ≤ 25599 / 100 ∧
    (∃ n : Int, 100 * (25599 / 100 : Q) = n) := ⟨by decide, by decide +kernel, by decide +kernel, 25599, by decide +kernel⟩

theorem witness_F32UnpackByFields : f32Unpack 1 0 0xC0 0x7F = .nan ∧ f32Unpack 0 0 0x80 0xFF = .negInf ∧
    f32Unpack 0 0 0x80 0x80 = .fin (-1 / 2 ^ 126) ∧ f32Unpack 1 0 0 0 = .fin (1 / 2 ^ 149) := by decide +kernel

theorem witness_F32Pack : (0 : Q) < 2 ^ 128 - 2 ^ 103 ∧ |(2 ^ 128 - 2 ^ 103 - 1 : Q)| < 2 ^ 128 - 2 ^ 103 ∧
    (1 / 2 ^ 126 : Q) ≤ |(2 ^ 128 - 2 ^ 103 - 1 : Q)| ∧
    (∃ x : Q, f32Unpack 0 0 0x80 0x3F = .fin x) := ⟨by decide +kernel, by decide +kernel, by decide +kernel, 1, by decide +kernel⟩

theorem witness_CoordinateUnpackIsPlainSum : f32Unpack 0 0 0x80 0x3F = .fin 1 ∧ f32Unpack 0 0 0x80 0x7F = .posInf ∧
    f32Unpack 0 0 0x80 0xFF = .negInf ∧ f32Unpack 0 0 0xC0 0x7F = .nan := by decide +kernel

theorem witness_CoordinateRoundTrip : (-128 : Q) < 127999 / 1000 ∧ (127999 / 1000 : Q) < 128 := by decide +kernel

theorem witness_ByteFractionSchemes : (0x7F : Byte).toNat < 128 ∧ 128 ≤ (0x80 : Byte).toNat := by decide

/-- Just outside each end. -/
theorem witness_OutsideDomainIsRefused : ((-1 : Int) < 0 ∧ (255 : Int) < 256 ∧ (65535 : Int) < 65536) ∧
    ((-(2 ^ 63) - 1 : Int) < -(2 ^ 63) ∧ (2 ^ 63 : Int) ≤ 2 ^ 63) ∧ ((-1 / 100 : Q) < 0 ∧ (25599 / 100 : Q) < 256) ∧
    (100 * (1 / 1000 : Q)).den ≠ 1 ∧ (2 ^ 128 - 2 ^ 103 : Q) ≤ |(2 ^ 103 - 2 ^ 128 : Q)| := by decide +kernel

end Sys2Proof.Tests
end

-- The byte form of an operation: both directions of the round trip.
section
/-! SUPPORT. The round trip of the model's byte form (log 1), over all 50 operations. The decoder reads back what the
encoder wrote by one lemma per constructor (the family RoundTrip). For the other direction a decoding is followed from
the front: `Continues pre p` says that with the bytes `pre` already read, whatever operation `p` goes on to answer is
written as `pre` and the bytes `p` took. -/

namespace Sys2Proof

theorem decode_encode : ∀ i : Instr, Laws.RoundTrip.Statement i
  | .rst => Laws.RoundTrip.rst
  | .feedb b => Laws.RoundTrip.feedb b
  | .feed bs => Laws.RoundTrip.feed bs
  | .fIdle => Laws.RoundTrip.fIdle
  | .fDrop => Laws.RoundTrip.fDrop
  | .fWait => Laws.RoundTrip.fWait
  | .fEmit => Laws.RoundTrip.fEmit
  | .decode f => Laws.RoundTrip.decode f
  | .xM1 f => Laws.RoundTrip.xM1 f
  | .xM2 f => Laws.RoundTrip.xM2 f
  | .xCo2 f => Laws.RoundTrip.xCo2 f
  | .xCh2o f => Laws.RoundTrip.xCh2o f
  | .xTvoc f => Laws.RoundTrip.xTvoc f
  | .xPm25 f => Laws.RoundTrip.xPm25 f
  | .xPm10 f => Laws.RoundTrip.xPm10 f
  | .xAirT f => Laws.RoundTrip.xAirT f
  | .xAirH f => Laws.RoundTrip.xAirH f
  | .xTurb f => Laws.RoundTrip.xTurb f
  | .xPh f => Laws.RoundTrip.xPh f
  | .xTds f => Laws.RoundTrip.xTds f
  | .xWatT f => Laws.RoundTrip.xWatT f
  | .xWlvl f => Laws.RoundTrip.xWlvl f
  | .xLat f => Laws.RoundTrip.xLat f
  | .xLon f => Laws.RoundTrip.xLon f
  | .xHdg f => Laws.RoundTrip.xHdg f
  | .xSpd f => Laws.RoundTrip.xSpd f
  | .xBat f => Laws.RoundTrip.xBat f
  | .xMode f => Laws.RoundTrip.xMode f
  | .encode c => Laws.RoundTrip.encode c
  | .eHdr t => Laws.RoundTrip.eHdr t
  | .eTs t secs => Laws.RoundTrip.eTs t secs
  | .ePoint t p lat lon => Laws.RoundTrip.ePoint t p lat lon
  | .eCtrl t c pa pv m m1 m2 => Laws.RoundTrip.eCtrl t c pa pv m m1 m2
  | .eTail t o => Laws.RoundTrip.eTail t o
  | .u8Unpack b0 => Laws.RoundTrip.u8Unpack b0
  | .u8Pack v => Laws.RoundTrip.u8Pack v
  | .u16Unpack b0 b1 => Laws.RoundTrip.u16Unpack b0 b1
  | .u16Pack v => Laws.RoundTrip.u16Pack v
  | .i16Unpack b0 b1 => Laws.RoundTrip.i16Unpack b0 b1
  | .i64Pack v => Laws.RoundTrip.i64Pack v
  | .hlUnpack h l => Laws.RoundTrip.hlUnpack h l
  | .hlPack v => Laws.RoundTrip.hlPack v
  | .f32Unpack b0 b1 b2 b3 => Laws.RoundTrip.f32Unpack b0 b1 b2 b3
  | .f32Pack q => Laws.RoundTrip.f32Pack q
  | .sfUnpack i b0 b1 b2 b3 => Laws.RoundTrip.sfUnpack i b0 b1 b2 b3
  | .sfPack v => Laws.RoundTrip.sfPack v
  | .sbUnpack i f => Laws.RoundTrip.sbUnpack i f
  | .ubUnpack i f => Laws.RoundTrip.ubUnpack i f
  | .bool8Pack v => Laws.RoundTrip.bool8Pack v
  | .clampMotor v => Laws.RoundTrip.clampMotor v

/-- With `pre` already read, `p` answers an operation whose words are `pre` and the bytes `p` took. -/
def Continues (pre : List Byte) (p : Parser Instr) : Prop :=
  ∀ bs i rest, p bs = .ok (i, rest) → encode i ++ rest = pre ++ bs

namespace Continues

variable {α : Type} {pre : List Byte} {p : Parser α} {enc : α → List Byte}

/-- No operand is left: the bytes read are the words of the operation. -/
theorem done {i : Instr} (h : encode i = pre) : Continues pre (Parser.done i) := by
  rintro bs _ _ ⟨⟩
  rw [h]

/-- An operand that is written back joins the bytes already read. -/
theorem andThen {k : α → Parser Instr} (hp : Writes p enc) (hk : ∀ a, Continues (pre ++ enc a) (k a)) :
    Continues pre (p.andThen k) := by
  intro bs i rest h
  obtain ⟨a, mid, ha, hi⟩ := Parser.andThen_ok h
  rw [hk a mid i rest hi, List.append_assoc, hp bs a mid ha]

/-- The last operand of an operation. -/
theorem last {g : α → Instr} (hp : Writes p enc) (hg : ∀ a, encode (g a) = pre ++ enc a) :
    Continues pre (p.andThen fun a => Parser.done (g a)) :=
  andThen hp fun a => done (hg a)

/-- An operation whose only operand is a frame. -/
theorem frame {g : List Byte → Instr} (hg : ∀ f, encode (g f) = pre ++ f) :
    Continues pre (parseFrame.andThen fun f => Parser.done (g f)) :=
  last (writes_bytes _) hg

end Continues

theorem parseOperands_continues : ∀ sel : Nat, Continues [BitVec.ofNat 8 sel] (parseOperands sel)
  | 0 => .done rfl
  | 1 => .last writes_byte fun _ => rfl
  | 2 => .last writes_seq fun _ => rfl
  | 3 => .done rfl
  | 4 => .done rfl
  | 5 => .done rfl
  | 6 => .done rfl
  | 7 => .frame fun _ => rfl
  | 8 => .frame fun _ => rfl
  | 9 => .frame fun _ => rfl
  | 10 => .frame fun _ => rfl
  | 11 => .frame fun _ => rfl
  | 12 => .frame fun _ => rfl
  | 13 => .frame fun _ => rfl
  | 14 => .frame fun _ => rfl
  | 15 => .frame fun _ => rfl
  | 16 => .frame fun _ => rfl
  | 17 => .frame fun _ => rfl
  | 18 => .frame fun _ => rfl
  | 19 => .frame fun _ => rfl
  | 20 => .frame fun _ => rfl
  | 21 => .frame fun _ => rfl
  | 22 => .frame fun _ => rfl
  | 23 => .frame fun _ => rfl
  | 24 => .frame fun _ => rfl
  | 25 => .frame fun _ => rfl
  | 26 => .frame fun _ => rfl
  | 27 => .frame fun _ => rfl
  | 28 => .last writes_cmd fun _ => rfl
  | 29 => .last writes_seq fun _ => rfl
  | 30 => .andThen writes_seq fun _ => .last writes_u64 fun _ => rfl
  | 31 => .andThen writes_seq fun _ => .andThen writes_nat fun _ => .andThen writes_q fun _ =>
      .last writes_q fun _ => by simp [encode]
  | 32 => .andThen writes_seq fun _ => .andThen writes_nat fun _ => .andThen writes_bool fun _ =>
      .andThen writes_bool fun _ => .andThen writes_boatMode fun _ => .andThen writes_u16 fun _ =>
      .last writes_u16 fun _ => by simp [encode]
  | 33 => .andThen writes_seq fun _ => .last writes_nat fun _ => rfl
  | 34 => .last writes_byte fun _ => rfl
  | 35 => .last writes_int fun _ => rfl
  | 36 => .andThen writes_byte fun _ => .last writes_byte fun _ => rfl
  | 37 => .last writes_int fun _ => rfl
  | 38 => .andThen writes_byte fun _ => .last writes_byte fun _ => rfl
  | 39 => .last writes_int fun _ => rfl
  | 40 => .andThen writes_byte fun _ => .last writes_byte fun _ => rfl
  | 41 => .last writes_q fun _ => rfl
  | 42 => .andThen writes_byte fun _ => .andThen writes_byte fun _ => .andThen writes_byte fun _ =>
      .last writes_byte fun _ => rfl
  | 43 => .last writes_q fun _ => rfl
  | 44 => .andThen writes_byte fun _ => .andThen writes_byte fun _ => .andThen writes_byte fun _ =>
      .andThen writes_byte fun _ => .last writes_byte fun _ => rfl
  | 45 => .last writes_q fun _ => rfl
  | 46 => .andThen writes_byte fun _ => .last writes_byte fun _ => rfl
  | 47 => .andThen writes_byte fun _ => .last writes_byte fun _ => rfl
  | 48 => .last writes_bool fun _ => rfl
  | 49 => .last writes_int fun _ => rfl
  | _ + 50 => fun _ _ _ h => by cases h

/-- Settles O24: by cases on the operation, each by its own lemma of the family RoundTrip. -/
theorem decodeReadsBackEncode : Obligations.DecodeReadsBackEncode := decode_encode

/-- Settles O25: the selector byte is read first, and what is read after it continues it. -/
theorem encodeWritesBackDecode : Obligations.EncodeWritesBackDecode := by
  intro bs i rest h
  obtain ⟨sel, mid, hsel, hi⟩ := Parser.andThen_ok h
  rw [parseOperands_continues sel.toNat mid i rest hi, BitVec.ofNat_toNat, BitVec.setWidth_eq]
  exact writes_byte bs sel mid hsel

end Sys2Proof
end

-- What a step runs.
section
/-! SUPPORT. What `fetch` finds, one equation per case of the input, and from it what `step` runs. -/

namespace Sys2Proof.Machine

variable {s : State} {i : Instr} {rest : List Byte} {r : Reject}

theorem fetch_of_decode_ok (h : decode s.input = .ok (i, rest)) : fetch s = .run i rest := by
  unfold fetch
  split
  · next hin => rw [hin] at h; cases h
  · next hin => rw [hin] at h; rw [h]

theorem fetch_of_decode_error (hne : s.input ≠ []) (h : decode s.input = .error r) : fetch s = .reject r := by
  unfold fetch
  split
  · next hin => exact absurd hin hne
  · next hin => rw [hin] at h; rw [h]

theorem fetch_of_input_nil (hin : s.input = []) (hr : s.rstDone = true) : fetch s = .run (decodeHead s.buf) [] := by
  simp [fetch, hin, hr]

theorem step_of_fetch_run (h : fetch s = .run i rest) : step s = exec i (s.setInput rest) := by
  simp [step, h]

theorem step_of_fetch_reject (h : fetch s = .reject r) : step s = .refused (.badTransaction r) := by
  simp [step, h]

/-- Settles O19: what the input decodes to, its words by the round trip, bytes that are none, and the idle step. -/
theorem stepRunsTheDecodedOperation : Obligations.StepRunsTheDecodedOperation := by
  intro s
  have hrun : ∀ i rest, decode s.input = .ok (i, rest) → step s = exec i (s.setInput rest) :=
    fun _ _ h => step_of_fetch_run (fetch_of_decode_ok h)
  refine ⟨hrun, fun i rest hwf hin => hrun i rest ?_, fun r hne h => ?_, fun hin hr => ?_⟩
  · rw [hin]
    exact decode_encode i hwf rest
  · exact step_of_fetch_reject (fetch_of_decode_error hne h)
  · rw [step_of_fetch_run (fetch_of_input_nil hin hr), ← hin, State.setInput_self]

end Sys2Proof.Machine
end

-- A segment writer outside its frame.
section
/-! SUPPORT. The refusal of a segment writer (log 10). -/

namespace Sys2Proof.Machine

/-- `MemWrite` requires `off + n <= len(a)` (00_scope.md R9): a segment that ends beyond the frame is refused. -/
theorem writeSegment_of_length_lt {t t' : List Byte} {off n : Nat} {s : State} (h : t.length < off + n) :
    writeSegment t off n t' s = .refused .outsideFrame := by
  have hfits : fits t off n = false := by simpa [fits] using h
  simp [writeSegment, hfits]

/-- Settles O45: each of the five writers is `writeSegment` at its offset with its segment's length. -/
theorem writeOutsideFrameIsRefused : Obligations.WriteOutsideFrameIsRefused := by
  intro s t
  refine ⟨fun h => ?eHdr, fun h secs => ?eTs, fun p lat lon h => ?ePoint, fun c pa pv m m1 m2 h => ?eCtrl,
    fun o h => ?eTail⟩
  case eHdr => exact writeSegment_of_length_lt h
  case eTs => exact writeSegment_of_length_lt h
  case ePoint => exact writeSegment_of_length_lt h
  case eCtrl => exact writeSegment_of_length_lt h
  case eTail => exact writeSegment_of_length_lt h

end Sys2Proof.Machine
end

-- What an operation does to the state.
section
/-! SUPPORT. What an operation does, said once over all 50: the operations without a port deliver a value or are
refused whatever the state is, ENCODE always delivers its result, and the framer's operations replace the buffer and
deliver frames. `Effect` collects them: what the next state is when an operation completes. -/

namespace Sys2Proof.Machine

/-! ## The operations without a port (log 7) -/

/-- The field extractions, the segment writers and the NumericCodec primitives: all but the nine operations of the
ports and the framer (10_state.md R20, R27). -/
def isPortless : Instr → Bool
  | .rst | .feedb _ | .feed _ | .fIdle | .fDrop | .fWait | .fEmit | .decode _ | .encode _ => false
  | _ => true

/-- A value delivered where the operands allow it. -/
def deliverValue (ok : Bool) (v : Value) (r : Refusal) (s : State) : Result :=
  if ok then .next (s.emitValue v) else .refused r

theorem extract_eq_deliverValue (f : List Byte) (v : Value) (s : State) :
    extract f v s = deliverValue (decide (f.length = Params.rxLen)) v .frameLength s := by
  simp [extract, deliverValue]

theorem writeSegment_eq_deliverValue (t : List Byte) (off n : Nat) (t' : List Byte) (s : State) :
    writeSegment t off n t' s = deliverValue (fits t off n) (.bytes t') .outsideFrame s := rfl

theorem primitive_eq_deliverValue (domain : Bool) (v : Value) (s : State) :
    primitive domain v s = deliverValue domain v .outsideDomain s := rfl

/-- Whether an operation without a port completes, and with which value, its operands alone decide. -/
theorem exec_of_isPortless {i : Instr} (hi : isPortless i = true) :
    ∃ ok v r, ∀ s, exec i s = deliverValue ok v r s := by
  cases i
  case xM1 f | xM2 f | xCo2 f | xCh2o f | xTvoc f | xPm25 f | xPm10 f | xAirT f | xAirH f | xTurb f | xPh f | xTds f
      | xWatT f | xWlvl f | xLat f | xLon f | xHdg f | xSpd f | xBat f | xMode f =>
    exact ⟨_, _, _, extract_eq_deliverValue f _⟩
  case eHdr | eTs | ePoint | eCtrl | eTail => exact ⟨_, _, _, writeSegment_eq_deliverValue _ _ _ _⟩
  case u8Pack | u16Pack | i64Pack | hlPack | f32Pack | clampMotor =>
    exact ⟨_, _, _, primitive_eq_deliverValue _ _⟩
  case u8Unpack | u16Unpack | i16Unpack | hlUnpack | f32Unpack | sfUnpack | sfPack | sbUnpack | ubUnpack
      | bool8Pack =>
    exact ⟨true, _, _, primitive_eq_deliverValue true _⟩
  all_goals cases hi

theorem deliverValue_next {ok : Bool} {v : Value} {r : Refusal} {s s' : State}
    (h : deliverValue ok v r s = .next s') : s' = s.emitValue v := by
  unfold deliverValue at h
  split at h <;> cases h
  rfl

/-! ## ENCODE (43_command_encoder.md R190, R231) -/

/-- The one result of an ENCODE. -/
def encodeResult (c : EncCmd) : EncodeResult := ((firstError c).map EncodeResult.err).getD (encodeOk c)

theorem encodeResult_of_error {c : EncCmd} {k : EncErr} (h : firstError c = some k) : encodeResult c = .err k := by
  simp [encodeResult, h]

theorem encodeResult_of_no_error {c : EncCmd} (h : firstError c = none) : encodeResult c = encodeOk c := by
  simp [encodeResult, h]

theorem execEncode_eq (c : EncCmd) (s : State) : execEncode c s = .next (s.emitResult (encodeResult c)) := by
  unfold execEncode
  split
  · next k h => rw [encodeResult_of_error h]; rfl
  · next h => rw [encodeResult_of_no_error h]

/-! ## The framer -/

/-- The buffer replaced, the frames `fs` delivered and decoded (41_framer.md R126). -/
def State.receive (b : List Byte) (fs : List (List Byte)) (s : State) : State :=
  { s with buf := b, frameOut := s.frameOut ++ fs, readingsOut := s.readingsOut ++ fs.map decodeFrame }

section
variable (s : State) (b : List Byte) (fs : List (List Byte))

@[simp] theorem State.receive_buf : (s.receive b fs).buf = b := rfl
@[simp] theorem State.receive_rstDone : (s.receive b fs).rstDone = s.rstDone := rfl
@[simp] theorem State.receive_linkOpen : (s.receive b fs).linkOpen = s.linkOpen := rfl
@[simp] theorem State.receive_frameOut : (s.receive b fs).frameOut = s.frameOut ++ fs := rfl
@[simp] theorem State.receive_readingsOut :
    (s.receive b fs).readingsOut = s.readingsOut ++ fs.map decodeFrame := rfl
@[simp] theorem State.receive_encResult : (s.receive b fs).encResult = s.encResult := rfl
@[simp] theorem State.receive_valueOut : (s.receive b fs).valueOut = s.valueOut := rfl
@[simp] theorem State.receive_input : (s.receive b fs).input = s.input := rfl

theorem State.receive_nil : s.receive b [] = s.setBuf b := by
  simp [State.receive, State.setBuf]

theorem State.receive_receive (b' : List Byte) (fs' : List (List Byte)) :
    (s.receive b fs).receive b' fs' = s.receive b' (fs ++ fs') := by
  simp [State.receive]

end

theorem dropFront_eq_receive (s : State) : dropFront s = s.receive (s.buf.drop 1) [] := (s.receive_nil _).symm

theorem emitFront_eq_receive (s : State) :
    emitFront s = s.receive (s.buf.drop Params.rxLen) [memRead s.buf 0 Params.rxLen] := rfl

theorem feedByte_eq_receive (s : State) (b : Byte) :
    feedByte s b = s.receive (feedRef s.buf [b]).1 (feedRef s.buf [b]).2 := feedByte_eq s b

/-- A feed delivers valid frames only (41_framer.md R133) and leaves a settled buffer settled (10_state.md R22). -/
theorem feedBytes_receives (s : State) (bs : List Byte) : ∃ b' fs, feedBytes s bs = s.receive b' fs ∧
    (∀ f ∈ fs, validFrame f = true) ∧ (bufferSettled s.buf = true → bufferSettled b' = true) := by
  induction bs generalizing s with
  | nil => exact ⟨s.buf, [], (s.receive_nil s.buf).symm, List.forall_mem_nil _, id⟩
  | cons b bs ih =>
    obtain ⟨b', fs, heq, hfs, hb'⟩ := ih (feedByte s b)
    refine ⟨b', (feedRef s.buf [b]).2 ++ fs, ?_, ?_, fun _ => hb' (feedByte_settled s b)⟩
    · rw [feedBytes_cons, heq, feedByte_eq_receive, State.receive_receive]
    · exact List.forall_mem_append.2 ⟨feedRefLoop_frames _ _, hfs⟩

/-! ## The effect of an operation that completes -/

/-- The next state of each operation, with the guards under which it completes. -/
inductive Effect (s : State) : Instr → State → Prop where
  | rst : Effect s .rst s.setReset
  | feedb (b : Byte) (hr : s.rstDone = true) : Effect s (.feedb b) (feedByte s b)
  | feed (bs : List Byte) (hr : s.rstDone = true) : Effect s (.feed bs) (feedBytes s bs)
  | fIdle (hr : s.rstDone = true) (hp : phase s.buf = .idle) : Effect s .fIdle s
  | fDrop (hr : s.rstDone = true) (hp : phase s.buf = .hunt) : Effect s .fDrop (dropFront s)
  | fWait (hr : s.rstDone = true) (hp : phase s.buf = .wait) : Effect s .fWait s
  | fEmit (hr : s.rstDone = true) (hp : phase s.buf = .ready) : Effect s .fEmit (emitFront s)
  | decode (f : List Byte) (hf : f.length = Params.rxLen) : Effect s (.decode f) (s.emitReadings (decodeFrame f))
  | encode (c : EncCmd) : Effect s (.encode c) (s.emitResult (encodeResult c))
  | value {i : Instr} (hi : isPortless i = true) (v : Value) : Effect s i (s.emitValue v)

theorem Effect.of_isPortless {i : Instr} {s s' : State} (hi : isPortless i = true) (h : exec i s = .next s') :
    Effect s i s' := by
  obtain ⟨ok, v, r, heq⟩ := exec_of_isPortless hi
  obtain rfl := deliverValue_next ((heq s).symm.trans h)
  exact .value hi v

/-- The inversion of `exec`: an operation that completes has its effect. -/
theorem effect_of_exec {i : Instr} {s s' : State} (h : exec i s = .next s') : Effect s i s' := by
  cases i
  case rst => cases h; exact .rst
  case feedb b => obtain ⟨hr, rfl⟩ := (afterReset_next_iff ..).1 h; exact .feedb b hr
  case feed bs => obtain ⟨hr, rfl⟩ := (afterReset_next_iff ..).1 h; exact .feed bs hr
  case fIdle => obtain ⟨hr, hp, rfl⟩ := (microStep_next_iff ..).1 h; exact .fIdle hr hp
  case fDrop => obtain ⟨hr, hp, rfl⟩ := (microStep_next_iff ..).1 h; exact .fDrop hr hp
  case fWait => obtain ⟨hr, hp, rfl⟩ := (microStep_next_iff ..).1 h; exact .fWait hr hp
  case fEmit => obtain ⟨hr, hp, rfl⟩ := (microStep_next_iff ..).1 h; exact .fEmit hr hp
  case decode f =>
    simp only [exec, execDecode] at h
    split at h
    · next hf => cases h; exact .decode f hf
    · cases h
  case encode c => cases (execEncode_eq c s).symm.trans h; exact .encode c
  all_goals exact .of_isPortless rfl h

/-- A step does nothing, or has the effect of the operation it fetched. -/
theorem step_cases {s s' : State} (h : step s = .next s') :
    (fetch s = .idle ∧ s' = s) ∨ ∃ i rest, fetch s = .run i rest ∧ Effect (s.setInput rest) i s' := by
  cases hf : fetch s with
  | idle => simp only [step, hf] at h; cases h; exact .inl ⟨rfl, rfl⟩
  | run i rest => exact .inr ⟨i, rest, rfl, effect_of_exec ((step_of_fetch_run hf).symm.trans h)⟩
  | reject r => cases (step_of_fetch_reject hf).symm.trans h

end Sys2Proof.Machine
end

-- The frame ENCODE assembles.
section
/-! SUPPORT. The assembly of R190 as one list of segments. Each writer runs right behind the segments before it, so it
appends its segment to a known front. -/

namespace Sys2Proof.Machine

variable {a z : List Byte}

theorem writeHdr_front (h : 2 ≤ z.length) : writeHdr z = [0xFF, 0xFE] ++ z.drop 2 := by
  rw [writeHdr_eq z h]
  exact memWrite_front [] z _

theorem writeTs_front (secs : BitVec 64) (ha : a.length = 2) :
    writeTs (a ++ z) secs = a ++ i64Pack secs.toInt ++ z.drop 8 := by
  show memWrite (a ++ z) 2 _ = _
  rw [← ha, memWrite_front, i64Pack_length]

theorem writePoint_front (lat lon : Q) {p : Nat} (ha : a.length = p) (hz : 10 ≤ z.length) :
    writePoint (a ++ z) p lat lon = a ++ (sfPack lon ++ sfPack lat) ++ z.drop 10 := by
  rw [writePoint_eq _ _ _ _ (by simp; omega), ← ha, memWrite_front]
  rfl

theorem writeCtrl_front (pa pv : Bool) (m : Int) (m1 m2 : BitVec 16) {c : Nat} (ha : a.length = c)
    (hz : 7 ≤ z.length) : writeCtrl (a ++ z) c pa pv m m1 m2 = a ++ ctrlBytes pa pv m m1 m2 ++ z.drop 7 := by
  rw [writeCtrl_eq _ _ _ _ _ _ _ (by simp; omega), ← ha, memWrite_front, ctrlBytes_length]

theorem writeTail_front {o : Nat} (ha : a.length = o) :
    writeTail (a ++ z) o = a ++ List.replicate 14 0 ++ z.drop 14 := by
  rw [writeTail, ← ha, memWrite_front, List.length_replicate]

/-- The segments of a send frame before its tail, for the accepted waypoints `acc` (30_encoding.md R81). -/
def frameFront (c : EncCmd) (acc : List PointIn) : List Byte :=
  [0xFF, 0xFE] ++ i64Pack c.ts.secs.toInt ++ (sfPack c.home.lon ++ sfPack c.home.lat) ++
    acc.flatMap (fun w => sfPack w.lon ++ sfPack w.lat) ++
    ctrlBytes c.pumpAuto c.pumpActive c.mode.toNat c.motor1 c.motor2

theorem frameFront_length (c : EncCmd) (acc : List PointIn) :
    (frameFront c acc).length = Params.offTail acc.length := by
  simp only [frameFront, List.length_append, points_length, i64Pack_length, sfPack_length, ctrlBytes_length]
  simp

theorem freshFrame_length (n : Nat) : (freshFrame n).length = Params.txLen n := List.length_replicate

/-- Over a frame of the right length, whatever it holds, every byte is written (43_command_encoder.md R205, R207). -/
theorem assemble_eq (c : EncCmd) (acc : List PointIn) {t : List Byte} (ht : t.length = Params.txLen acc.length) :
    assemble t c acc = frameFront c acc ++ List.replicate 14 0 := by
  have hlen : t.length = 41 + 10 * acc.length := ht
  simp only [assemble]
  rw [writeHdr_front (by omega), writeTs_front _ rfl, writePoint_front _ _ (by simp) (by simp; omega),
    writePoints_eq acc _ _ 1 (by simp) (by simp; omega),
    writeCtrl_front _ _ _ _ _ (by simp; omega) (by simp; omega),
    writeTail_front (by simp; omega)]
  rw [List.drop_eq_nil_of_le (i := 14) (by simp; omega), List.append_nil, frameFront]

end Sys2Proof.Machine
end

-- The invariant.
section
/-! SUPPORT. The invariant, one lemma per update of the state, and from it the statements about the buffer between
transactions and about every step. -/

namespace Sys2Proof.Machine

/-! ## The result of an ENCODE is whole (30_encoding.md R76, R80) -/

theorem select_length_le (wps : List PointIn) : (select wps).1.length ≤ Params.maxWp := by
  rw [select, selectFrom_eq]
  exact (List.length_filter_le _ _).trans (List.length_take_le _ _)

theorem validResult_ok_iff (bytes : List Byte) (n : Nat) (rej : List Nat) (tr : Nat) :
    validResult (.ok bytes n rej tr) = true ↔ n ≤ Params.maxWp ∧ bytes.length = Params.txLen n ∧
      bytes.take 2 = [Params.mark0, Params.mark1] ∧ bytes.drop (Params.offTail n) = List.replicate 14 0 := by
  simp [validResult, and_assoc]

theorem validResult_encodeOk (c : EncCmd) : validResult (encodeOk c) = true := by
  have hn := select_length_le c.wps
  have hfront := frameFront_length c (select c.wps).1
  rw [encodeOk, assemble_eq c _ (freshFrame_length _), validResult_ok_iff]
  refine ⟨hn, ?_, rfl, List.drop_left' hfront⟩
  rw [List.length_append, List.length_replicate, hfront]
  simp
  omega

theorem validResult_encodeResult (c : EncCmd) : validResult (encodeResult c) = true := by
  cases h : firstError c with
  | none => rw [encodeResult_of_no_error h]; exact validResult_encodeOk c
  | some k => rw [encodeResult_of_error h]; rfl

/-! ## What keeps the invariant -/

namespace State.Inv

variable {s : State} (h : s.Inv)
include h

theorem setReset : s.setReset.Inv := ⟨fun _ => rfl, h.frames, h.results⟩
theorem setInput (bs : List Byte) : (s.setInput bs).Inv := ⟨h.settled, h.frames, h.results⟩
theorem emitReadings (r : Readings) : (s.emitReadings r).Inv := ⟨h.settled, h.frames, h.results⟩
theorem emitValue (v : Value) : (s.emitValue v).Inv := ⟨h.settled, h.frames, h.results⟩

theorem emitResult {r : EncodeResult} (hr : validResult r = true) : (s.emitResult r).Inv :=
  ⟨h.settled, h.frames, List.forall_mem_append.2 ⟨h.results, List.forall_mem_singleton.2 hr⟩⟩

theorem receive {b : List Byte} {fs : List (List Byte)} (hb : bufferSettled b = true)
    (hfs : ∀ f ∈ fs, validFrame f = true) : (s.receive b fs).Inv :=
  ⟨fun _ => hb, List.forall_mem_append.2 ⟨h.frames, hfs⟩, h.results⟩

theorem feedBytes (hr : s.rstDone = true) (bs : List Byte) : (feedBytes s bs).Inv := by
  obtain ⟨b', fs, heq, hfs, hb'⟩ := feedBytes_receives s bs
  rw [heq]
  exact h.receive (hb' (h.settled hr)) hfs

/-- Between transactions neither F.DROP nor F.EMIT is selected (10_state.md R22). -/
theorem phase_idle_or_wait (hr : s.rstDone = true) : phase s.buf = .idle ∨ phase s.buf = .wait :=
  (settled_iff s.buf).1 (h.settled hr)

theorem effect {i : Instr} {s' : State} (he : Effect s i s') : s'.Inv := by
  cases he with
  | rst => exact h.setReset
  | feedb b hr => exact h.feedBytes hr [b]
  | feed bs hr => exact h.feedBytes hr bs
  | fIdle => exact h
  | fWait => exact h
  | fDrop hr hp => have hsel := h.phase_idle_or_wait hr; simp [hp] at hsel
  | fEmit hr hp => have hsel := h.phase_idle_or_wait hr; simp [hp] at hsel
  | decode f => exact h.emitReadings _
  | encode c => exact h.emitResult (validResult_encodeResult c)
  | value hi v => exact h.emitValue v

end State.Inv

/-- Settles O16: a step is idle or has the effect of an operation, and every effect keeps the invariant. -/
theorem stepKeepsInvariant : Obligations.StepKeepsInvariant := by
  intro s s' h hstep
  obtain ⟨-, rfl⟩ | ⟨i, rest, -, he⟩ := step_cases hstep
  · exact h
  · exact (h.setInput rest).effect he

/-- Settles O9: a settled buffer has room for the byte, and the framer's loop leaves a settled one. -/
theorem bufferNeverExceedsCapacity : Obligations.BufferNeverExceedsCapacity := by
  intro s b hr hb
  have hset := feedByte_settled s b
  refine ⟨?_, feedByte s b, (afterReset_next_iff ..).2 ⟨hr, rfl⟩, hset, settled_length _ hset⟩
  have := settled_length s.buf hb
  simp
  omega

/-- Settles O17: at reset the buffer is empty and nothing has been delivered. -/
theorem resetMeetsInvariant : Obligations.ResetMeetsInvariant :=
  ⟨⟨fun _ => rfl, List.forall_mem_nil _, List.forall_mem_nil _⟩, rfl, rfl, rfl⟩

end Sys2Proof.Machine
end

-- What an operation may change and what it reads.
section
/-! SUPPORT. Which operations change which part of the state (10_state.md R21 to R27), that none reads link_open
(R26), and that ENCODE reads no field behind `valid = false` (R30). -/

namespace Sys2Proof.Machine

/-! ## What an operation may change -/

theorem isPortless_ne {i : Instr} (hi : isPortless i = true) :
    i ∉ [Instr.rst, .fIdle, .fDrop, .fWait, .fEmit] ∧ (∀ b, i ≠ .feedb b) ∧ (∀ bs, i ≠ .feed bs) ∧
      (∀ f, i ≠ .decode f) ∧ ∀ c, i ≠ .encode c := by
  have hports : ∀ j ∈ [Instr.rst, .fIdle, .fDrop, .fWait, .fEmit], isPortless j = false := by decide
  refine ⟨fun hm => absurd hi (by simp [hports i hm]), ?_, ?_, ?_, ?_⟩ <;> rintro _ rfl <;> cases hi

/-- Settles O21: by cases on the effect of the operation, each with the fields it leaves as they are. -/
theorem onlyTheirOperationsChangeEachPart : Obligations.OnlyTheirOperationsChangeEachPart := by
  intro i s s' h
  cases effect_of_exec h with
  | rst => simp
  | feedb b => simp [feedByte_eq_receive]
  | feed bs =>
    obtain ⟨b', fs, heq, -, -⟩ := feedBytes_receives s bs
    simp [heq]
  | fIdle => simp
  | fDrop => simp [dropFront_eq_receive]
  | fWait => simp
  | fEmit => simp [emitFront_eq_receive]
  | decode f => simp
  | encode c => simp
  | value hi v => simp [isPortless_ne hi]

/-! ## link_open (10_state.md R26) -/

def State.setLinkOpen (v : Bool) (s : State) : State := { s with linkOpen := v }

/-- The next state of an outcome, changed by `g`; a refusal stays. -/
def mapNext (g : State → State) : Result → Result
  | .next s => .next (g s)
  | .fault r => .fault r
  | .refused r => .refused r

section
variable (s t : State) (v : Bool)

theorem afterReset_setLinkOpen :
    afterReset (s.setLinkOpen v) (t.setLinkOpen v) = mapNext (State.setLinkOpen v) (afterReset s t) := by
  unfold afterReset
  rw [apply_ite (mapNext _)]
  rfl

theorem microStep_setLinkOpen (p : Phase) :
    microStep p (t.setLinkOpen v) (s.setLinkOpen v) = mapNext (State.setLinkOpen v) (microStep p t s) := by
  unfold microStep
  rw [apply_ite (mapNext _), apply_ite (mapNext _)]
  rfl

theorem deliverValue_setLinkOpen (ok : Bool) (w : Value) (r : Refusal) :
    deliverValue ok w r (s.setLinkOpen v) = mapNext (State.setLinkOpen v) (deliverValue ok w r s) := by
  cases ok <;> rfl

theorem feedByte_setLinkOpen (b : Byte) : feedByte (s.setLinkOpen v) b = (feedByte s b).setLinkOpen v := by
  rw [feedByte_eq, feedByte_eq]
  rfl

theorem feedBytes_setLinkOpen (bs : List Byte) :
    feedBytes (s.setLinkOpen v) bs = (feedBytes s bs).setLinkOpen v := by
  induction bs generalizing s with
  | nil => rfl
  | cons b bs ih => rw [feedBytes_cons, feedBytes_cons, feedByte_setLinkOpen, ih]

/-- Every operation commutes with a change of link_open. -/
theorem exec_setLinkOpen (i : Instr) : exec i (s.setLinkOpen v) = mapNext (State.setLinkOpen v) (exec i s) := by
  cases hi : isPortless i with
  | true =>
    obtain ⟨ok, w, r, heq⟩ := exec_of_isPortless hi
    rw [heq, heq, deliverValue_setLinkOpen]
  | false =>
    cases i
    case rst => rfl
    case feedb b => simp only [exec, execFeedb, feedByte_setLinkOpen, afterReset_setLinkOpen]
    case feed bs => simp only [exec, execFeed, feedBytes_setLinkOpen, afterReset_setLinkOpen]
    case fIdle => exact microStep_setLinkOpen s s v _
    case fDrop => exact microStep_setLinkOpen s (dropFront s) v _
    case fWait => exact microStep_setLinkOpen s s v _
    case fEmit => exact microStep_setLinkOpen s (emitFront s) v _
    case decode f =>
      simp only [exec, execDecode]
      rw [apply_ite (mapNext _)]
      rfl
    case encode c =>
      simp only [exec, execEncode_eq]
      rfl
    all_goals cases hi

end

/-- Settles O22: every operation commutes with a change of link_open, so both outcomes are one. -/
theorem linkOpenHasNoEffect : Obligations.LinkOpenHasNoEffect := by
  intro i s v
  have hcomm : exec i { s with linkOpen := v } = _ := exec_setLinkOpen s v i
  refine ⟨fun t ht => ?_, fun r hr => ?_⟩
  · rw [hcomm, ht]
    rfl
  · rw [hcomm, hr]
    rfl

/-! ## The fields behind `valid = false` (10_state.md R30) -/

/-- Two points ENCODE does not tell apart: equal, or both invalid. -/
def SamePoint (v w : PointIn) : Prop := v = w ∨ (v.valid = false ∧ w.valid = false)

theorem usable_valid {p : PointIn} (h : usable p = true) : p.valid = true := (Bool.and_eq_true_iff.1 h).1

theorem SamePoint.eq_of_usable {v w : PointIn} (h : SamePoint v w) (hv : usable v = true) : v = w :=
  h.resolve_right fun ⟨hinv, _⟩ => by simp [usable_valid hv] at hinv

theorem SamePoint.usable_eq {v w : PointIn} (h : SamePoint v w) : usable v = usable w := by
  rcases h with rfl | ⟨hv, hw⟩
  · rfl
  · simp [usable, hv, hw]

/-- The selection keeps usable points and positions only. -/
theorem selectFrom_congr {vs ws : List PointIn} (h : List.Forall₂ SamePoint vs ws) (k : Nat) :
    selectFrom k vs = selectFrom k ws := by
  induction h generalizing k with
  | nil => rfl
  | cons hvw _ ih =>
    simp only [selectFrom, ih, ← hvw.usable_eq]
    split
    · next hv => rw [hvw.eq_of_usable hv]
    · rfl

theorem firstError_congr {c d : EncCmd} (hhome : SamePoint c.home d.home)
    (hts : c.ts = d.ts ∨ (c.ts.valid = false ∧ d.ts.valid = false)) (hmode : c.mode = d.mode) :
    firstError c = firstError d := by
  have htsv : c.ts.valid = d.ts.valid := hts.elim (congrArg TsIn.valid) fun ⟨hc, hd⟩ => hc.trans hd.symm
  unfold firstError
  rw [hhome.usable_eq, htsv, hmode]

theorem select_congr {vs ws : List PointIn} (h : List.Forall₂ SamePoint vs ws) : select vs = select ws :=
  selectFrom_congr (List.forall₂_take Params.maxWp h) 1

/-- The assembly reads the list of waypoints through the selection alone. -/
theorem encodeOk_congr (c : EncCmd) {ws : List PointIn} (h : List.Forall₂ SamePoint c.wps ws) :
    encodeOk c = encodeOk { c with wps := ws } := by
  unfold encodeOk
  rw [select_congr h, h.length_eq]
  rfl

/-- Settles O42: both inputs fail the same check first; if neither fails one, home point and timestamp are valid, so
equal, and the selections agree. -/
theorem invalidInputsAreNotRead : Obligations.InvalidInputsAreNotRead := by
  intro s c d hhome hts hwps hpa hpv hmode hm1 hm2
  refine ⟨⟨_, execEncode_eq c s⟩, ?_⟩
  have herr : firstError c = firstError d := firstError_congr hhome hts hmode
  have hres : encodeResult c = encodeResult d := by
    cases h : firstError c with
    | some k => rw [encodeResult_of_error h, encodeResult_of_error (herr ▸ h)]
    | none =>
      obtain ⟨hu, htv, -⟩ := (firstError_none_iff c).1 h
      have hh : c.home = d.home := SamePoint.eq_of_usable hhome hu
      have ht : c.ts = d.ts := hts.resolve_right fun hinv => by simp [htv] at hinv
      have hd : { c with wps := d.wps } = d := by rw [hh, ht, hpa, hpv, hmode, hm1, hm2]
      rw [encodeResult_of_no_error h, encodeResult_of_no_error (herr ▸ h), encodeOk_congr c hwps, hd]
  show execEncode c s = execEncode d s
  rw [execEncode_eq, execEncode_eq, hres]

end Sys2Proof.Machine
end

-- ENCODE beside the transactions at the RX ports.
section
/-! SUPPORT. A transaction at an RX port neither reads nor writes what `enc_result` has delivered, so it commutes with an
ENCODE, which does nothing but deliver there (20_memory.md R52). -/

namespace Sys2Proof.Machine

/-- The transactions at the RX ports: RST, FEEDB and FEED. -/
def IsRxTransaction (i : Instr) : Prop := i = .rst ∨ (∃ b, i = .feedb b) ∨ ∃ bs, i = .feed bs

section
variable (s t : State) (e : EncodeResult)

theorem afterReset_emitResult :
    afterReset (s.emitResult e) (t.emitResult e) = mapNext (State.emitResult e) (afterReset s t) := by
  unfold afterReset
  rw [apply_ite (mapNext _)]
  rfl

theorem feedByte_emitResult (b : Byte) : feedByte (s.emitResult e) b = (feedByte s b).emitResult e := by
  rw [feedByte_eq, feedByte_eq]
  rfl

theorem feedBytes_emitResult (bs : List Byte) : feedBytes (s.emitResult e) bs = (feedBytes s bs).emitResult e := by
  induction bs generalizing s with
  | nil => rfl
  | cons b bs ih => rw [feedBytes_cons, feedBytes_cons, feedByte_emitResult, ih]

variable {s} {i : Instr}

/-- An RX transaction commutes with a delivery on enc_result, whether it completes or is refused. -/
theorem exec_emitResult_of_rx (hi : IsRxTransaction i) :
    exec i (s.emitResult e) = mapNext (State.emitResult e) (exec i s) := by
  obtain rfl | ⟨b, rfl⟩ | ⟨bs, rfl⟩ := hi
  · rfl
  · simp only [exec, execFeedb, feedByte_emitResult, afterReset_emitResult]
  · simp only [exec, execFeed, feedBytes_emitResult, afterReset_emitResult]

theorem exec_completes_of_rx (hr : s.rstDone = true) (hi : IsRxTransaction i) : ∃ s1, exec i s = .next s1 := by
  obtain rfl | ⟨b, rfl⟩ | ⟨bs, rfl⟩ := hi
  · exact ⟨s.setReset, rfl⟩
  · exact ⟨feedByte s b, (afterReset_next_iff ..).2 ⟨hr, rfl⟩⟩
  · exact ⟨feedBytes s bs, (afterReset_next_iff ..).2 ⟨hr, rfl⟩⟩

end

/-- Settles O23: ENCODE delivers one result whatever the state is, and the RX transaction commutes with that delivery. -/
theorem encodeAndRxCommute : Obligations.EncodeAndRxCommute := by
  intro s c r hr hrx
  obtain ⟨s1, h1⟩ := exec_completes_of_rx hr hrx
  refine ⟨s1, s.emitResult (encodeResult c), s1.emitResult (encodeResult c), h1, execEncode_eq c s1,
    execEncode_eq c s, ?_⟩
  rw [exec_emitResult_of_rx (encodeResult c) hrx, h1]
  rfl

end Sys2Proof.Machine
end

-- The framer's head test.
section
/-! SUPPORT. What `decodeHead` answers, by the shape of the buffer, with the head test as R67 writes it: on the number
`h = BUF[0] x 256 + BUF[1]` (30_encoding.md R67). -/

namespace Sys2Proof

open Machine

/-- `h = 0xFFFE` says that the two bytes are the marker pair. -/
theorem head_eq_iff (b0 b1 : Byte) : b0.toNat * 256 + b1.toNat = 0xFFFE ↔ b0 = 0xFF ∧ b1 = 0xFE := by
  have h1 := b1.isLt
  rw [BitVec.toNat_eq, BitVec.toNat_eq]
  simp only [BitVec.reduceToNat]
  omega

theorem decodeHead_one (b : Byte) : decodeHead [b] = .fIdle := rfl

theorem decodeHead_cons (b0 b1 : Byte) (rest : List Byte) : decodeHead (b0 :: b1 :: rest) =
    if b0 = 0xFF ∧ b1 = 0xFE then (if rest.length < 63 then .fWait else .fEmit) else .fDrop := by
  rw [decodeHead, phase_cons]
  by_cases hm : b0 = 0xFF ∧ b1 = 0xFE
  · by_cases hr : rest.length < 63 <;> simp only [if_pos hm, hr, if_true, if_false]
  · simp only [if_neg hm]

/-- Settles O15: the branches of `decodeHead` on two bytes or more. -/
theorem headTestSelectsMicroStep : Obligations.HeadTestSelectsMicroStep := by
  intro b0 b1 rest
  rw [decodeHead_cons, Ne, head_eq_iff]
  refine ⟨fun hm hr => ?wait, fun hm hr => ?emit, fun hm => ?drop⟩
  case wait => rw [if_pos hm, if_pos hr]
  case emit => rw [if_pos hm, if_neg (Nat.not_lt.2 hr)]
  case drop => rw [if_neg hm]

/-- The words of a rational are those of its numerator and denominator in lowest terms (log 1, log 17). -/
theorem encode_sfPack_neg_half : encode (.sfPack (-1 / 2)) ++ [] = [0x2D, 0x01, 0x01, 0x01] := by
  have hnum : (-1 / 2 : Q).num = -1 := by norm_num
  have hden : (-1 / 2 : Q).den = 2 := by norm_num
  rw [encode, encodeQ, hnum, hden]
  rfl

/-- Settles O26: the first words by the head test, an operation's words by the round trip, and a selector byte beyond
the table's 50 rows. -/
theorem sampleWordsDecode : Obligations.SampleWordsDecode := by
  refine ⟨decodeHead_cons 0xFF 0xFE [], decodeHead_cons 0xFE 0xFF [], decodeHead_one 0xFF,
    decodeHead_cons 0xFF 0xFE _, ?feedb, ?feed, ?u16Unpack, ?sfPack, ?noRow⟩
  case feedb => exact decode_encode (.feedb 0xAB) rfl []
  case feed => exact decode_encode (.feed [0x12, 0x34]) rfl [0x00]
  case u16Unpack => exact decode_encode (.u16Unpack 0x90 0x01) rfl []
  case sfPack => rw [← encode_sfPack_neg_half]; exact decode_encode (.sfPack (-1 / 2)) rfl []
  case noRow => rfl

end Sys2Proof
end

-- The send frame by offset and width.
section
/-! SUPPORT. The segments of a send frame stand one right behind the other (30_encoding.md R81): `SegmentsAt t off ss`
says that `t` holds the byte sequences `ss` from offset `off` on. A frame is read in three parts: the segments before its
waypoints, those of one waypoint, and those behind the waypoints. -/

namespace Sys2Proof.Machine

/-! ## Segments one behind the other -/

/-- Each of the sequences is read back in its own width, the first at `off`, every other where the one before it ends. -/
def SegmentsAt (t : List Byte) : Nat → List (List Byte) → Prop
  | _, [] => True
  | off, s :: ss => memRead t off s.length = s ∧ SegmentsAt t (off + s.length) ss

theorem memRead_between (a s z : List Byte) : memRead (a ++ s ++ z) a.length s.length = s := by
  rw [memRead, List.append_assoc, List.drop_left, List.take_left]

theorem segmentsAt_of_eq {t a z : List Byte} {off : Nat} {ss : List (List Byte)} (ht : t = a ++ ss.flatten ++ z)
    (ha : a.length = off) : SegmentsAt t off ss := by
  induction ss generalizing a off with
  | nil => trivial
  | cons s ss ih =>
    subst ha
    have hs : t = a ++ s ++ (ss.flatten ++ z) := by rw [ht, List.flatten_cons]; simp only [List.append_assoc]
    refine ⟨by rw [hs, memRead_between], ih (a := a ++ s) ?_ (List.length_append ..)⟩
    rw [hs, List.append_assoc (a ++ s)]

/-! ## The parts of a send frame (30_encoding.md R81) -/

/-- The waypoints `ws`, one after the other (30_encoding.md R78). -/
def pointBytes (ws : List PointIn) : List Byte := ws.flatMap fun w => sfPack w.lon ++ sfPack w.lat

/-- A frame up to the end of the waypoints `ws`. -/
def pointsFront (c : EncCmd) (ws : List PointIn) : List Byte :=
  [0xFF, 0xFE] ++ i64Pack c.ts.secs.toInt ++ (sfPack c.home.lon ++ sfPack c.home.lat) ++ pointBytes ws

/-- What stands behind the waypoints. -/
def controlBack (c : EncCmd) : List Byte :=
  ctrlBytes c.pumpAuto c.pumpActive c.mode.toNat c.motor1 c.motor2 ++ List.replicate 14 0

/-- The frame with the accepted waypoints `acc`. -/
def sendFrame (c : EncCmd) (acc : List PointIn) : List Byte := pointsFront c acc ++ controlBack c

section
variable (c : EncCmd) (acc : List PointIn)

theorem pointsFront_length : (pointsFront c acc).length = 20 + 10 * acc.length := by
  simp only [pointsFront, pointBytes, List.length_append, points_length, i64Pack_length, sfPack_length]
  rfl

theorem sendFrame_length : (sendFrame c acc).length = 41 + 10 * acc.length := by
  simp only [sendFrame, controlBack, List.length_append, pointsFront_length, ctrlBytes_length, List.length_replicate]
  omega

/-- A waypoint stands right behind those before it. -/
theorem sendFrame_append_cons (xs ys : List PointIn) (w : PointIn) : sendFrame c (xs ++ w :: ys) =
    pointsFront c xs ++ (sfPack w.lon ++ sfPack w.lat) ++ (pointBytes ys ++ controlBack c) := by
  simp only [sendFrame, pointsFront, pointBytes, List.flatMap_append, List.flatMap_cons, List.append_assoc]

theorem sendFrame_headSegments : SegmentsAt (sendFrame c acc) 0
    [[0xFF], [0xFE], i64Pack c.ts.secs.toInt, sfPack c.home.lon, sfPack c.home.lat] :=
  segmentsAt_of_eq (a := []) (z := pointBytes acc ++ controlBack c) (by simp [sendFrame, pointsFront]) rfl

/-- The `k`-th accepted waypoint, counted from 0. -/
theorem sendFrame_pointSegments {k : Nat} {w : PointIn} (hw : acc[k]? = some w) :
    SegmentsAt (sendFrame c acc) (10 + 10 * (k + 1)) [sfPack w.lon, sfPack w.lat] := by
  obtain ⟨hk, rfl⟩ := List.getElem?_eq_some_iff.1 hw
  have hacc : acc = acc.take k ++ acc[k] :: acc.drop (k + 1) := by
    rw [← List.drop_eq_getElem_cons hk, List.take_append_drop]
  refine segmentsAt_of_eq ((congrArg (sendFrame c) hacc).trans ?_) ?_ (a := pointsFront c (acc.take k))
    (z := pointBytes (acc.drop (k + 1)) ++ controlBack c)
  · rw [sendFrame_append_cons]
    simp
  · rw [pointsFront_length, List.length_take_of_le hk.le]
    omega

/-- The flags, the mode, the motors and the tail. -/
theorem sendFrame_backSegments : SegmentsAt (sendFrame c acc) (20 + 10 * acc.length)
    [bool8Pack c.pumpAuto, bool8Pack c.pumpActive, u8Pack c.mode.toNat, u16Pack (clampMotor c.motor1.toNat),
      u16Pack (clampMotor c.motor2.toNat), List.replicate 14 0] :=
  segmentsAt_of_eq (z := []) (by simp [sendFrame, controlBack, ctrlBytes]) (pointsFront_length c acc)

end

/-! ## The frame that ENCODE delivers (43_command_encoder.md R190) -/

theorem select_fst (wps : List PointIn) : (select wps).1 = (wps.take 50).filter usable := by
  rw [select, selectFrom_eq]

theorem encodeOk_eq (c : EncCmd) : encodeOk c =
    .ok (sendFrame c (select c.wps).1) (select c.wps).1.length (select c.wps).2 (c.wps.length - Params.maxWp) := by
  rw [encodeOk, assemble_eq c _ (freshFrame_length _), frameFront, List.append_assoc]
  rfl

theorem exec_encode_of_no_error {c : EncCmd} (h : firstError c = none) (s : State) :
    exec (.encode c) s = .next (s.emitResult (encodeOk c)) := by
  rw [← encodeResult_of_no_error h]
  exact execEncode_eq c s

/-- Settles O38: the frame delivered is `sendFrame` of the accepted waypoints, read in its three parts. -/
theorem sendFrameMap : Obligations.SendFrameMap := by
  intro s c hhome hts hmode
  have hexec := exec_encode_of_no_error ((firstError_none_iff c).2 ⟨hhome, hts, hmode⟩) s
  have hle := select_length_le c.wps
  rw [encodeOk_eq] at hexec
  rw [← select_fst]
  generalize (select c.wps).1 = acc at hexec hle
  obtain ⟨hff, hfe, hsecs, hlon, hlat, -⟩ := sendFrame_headSegments c acc
  have hback := sendFrame_backSegments c acc
  simp only [SegmentsAt, bool8Pack_length, u8Pack_length, u16Pack_length, List.length_replicate,
    Nat.add_right_comm _ (10 * acc.length), Nat.reduceAdd] at hback
  obtain ⟨hpa, hpv, hm, hm1, hm2, hz, -⟩ := hback
  refine ⟨_, _, _, _, hexec, rfl, hle, sendFrame_length c acc, hff, hfe, hsecs, hlon, hlat, fun k w hw => ?_,
    hpa, hpv, hm, hm1, hm2, hz⟩
  obtain ⟨hwlon, hwlat, -⟩ := sendFrame_pointSegments c acc hw
  rw [sfPack_length, Nat.add_right_comm] at hwlat
  exact ⟨hwlon, hwlat⟩

end Sys2Proof.Machine
end

-- The NumericCodec's integers and fixed-point numbers.
section
/-! SUPPORT. The primitives on whole bytes (40_numeric_codec.md): each completes exactly in its stated domain, and what
each conversion computes is said once, on numbers. -/

namespace Sys2Proof.Machine

/-! ## Domains (40_numeric_codec.md R97) -/

theorem primitive_of_domain {d : Bool} (h : d = true) (v : Value) (s : State) :
    primitive d v s = .next (s.emitValue v) := (primitive_next_iff d v s _).2 ⟨h, rfl⟩

theorem primitive_of_not_domain {d : Bool} (h : ¬ d = true) (v : Value) (s : State) :
    primitive d v s = .refused .outsideDomain := if_neg h

theorem u8Domain_iff (v : Int) : u8Domain v = true ↔ 0 ≤ v ∧ v ≤ 255 := decide_eq_true_iff

theorem u16Domain_iff (v : Int) : u16Domain v = true ↔ 0 ≤ v ∧ v ≤ 65535 := decide_eq_true_iff

theorem clampDomain_iff (v : Int) : clampDomain v = true ↔ 0 ≤ v ∧ v ≤ 65535 := decide_eq_true_iff

theorem i64Domain_iff (v : Int) : i64Domain v = true ↔ -(2 ^ 63) ≤ v ∧ v ≤ 2 ^ 63 - 1 := decide_eq_true_iff

theorem hlDomain_iff (v : Q) : hlDomain v = true ↔ 0 ≤ v ∧ v ≤ 25599 / 100 ∧ ∃ n : Int, 100 * v = n := by
  have hint : (100 * v).den = 1 ↔ ∃ n : Int, 100 * v = n :=
    ⟨fun h => ⟨_, (Rat.coe_int_num_of_den_eq_one h).symm⟩, fun ⟨n, hn⟩ => by rw [hn]; rfl⟩
  rw [hlDomain, decide_eq_true_iff, hint]

theorem f32Domain_iff (q : Q) : f32Domain q = true ↔ |q| < 2 ^ 128 - 2 ^ 103 := by
  rw [f32Domain, decide_eq_true_iff, pow2_eq_zpow, pow2_eq_zpow]
  norm_cast

/-- Settles O59: each operand lies outside the domain of its primitive. -/
theorem outsideDomainIsRefused : Obligations.OutsideDomainIsRefused := by
  intro s
  refine ⟨fun v hv => ?u8, fun v hv => ?u16, fun v hv => ?clamp, fun v hv => ?i64, fun v hv => ?hl,
    fun q hq => ?f32⟩
  case u8 => exact primitive_of_not_domain (by rw [u8Domain_iff]; omega) _ s
  case u16 => exact primitive_of_not_domain (by rw [u16Domain_iff]; omega) _ s
  case clamp => exact primitive_of_not_domain (by rw [clampDomain_iff]; omega) _ s
  case i64 => exact primitive_of_not_domain (by rw [i64Domain_iff]; omega) _ s
  case hl =>
    refine primitive_of_not_domain (fun hd => ?_) _ s
    obtain ⟨h0, h1, hn⟩ := (hlDomain_iff v).1 hd
    obtain hv | hv | hv := hv
    · exact not_lt.2 h0 hv
    · exact not_lt.2 h1 hv
    · exact hv hn
  case f32 => exact primitive_of_not_domain (by rw [f32Domain_iff]; exact not_lt.2 hq) _ s

/-! ## Bytes and 16-bit words (R90 to R94, R110) -/

theorem ofInt_byte_toNat (v : Int) : ((BitVec.ofInt 8 v).toNat : Int) = v % 256 := by
  rw [BitVec.toNat_ofInt]
  omega

theorem byte_toInt (b : Byte) : b.toInt = if b.toNat < 128 then (b.toNat : Int) else b.toNat - 256 := by
  rw [BitVec.toInt_eq_toNat_cond]
  split <;> split <;> omega

theorem u16Unpack_toNat (b0 b1 : Byte) : (u16Unpack b0 b1).toNat = b0.toNat + 256 * b1.toNat := by
  have := b0.isLt
  have := b1.isLt
  rw [u16Unpack, BitVec.toNat_ofNat]
  omega

/-- The bytes packed are the two digits of the number to the base 256 (R93). -/
theorem u16Pack_eq {b0 b1 : Byte} {v : Int} (hv : v = b0.toNat + 256 * b1.toNat) : u16Pack v = [b0, b1] := by
  have := b0.isLt
  have h0 : BitVec.ofInt 8 v = b0 := BitVec.eq_of_toNat_eq (by zify; rw [ofInt_byte_toNat]; omega)
  have h1 : BitVec.ofInt 8 (v / 256) = b1 :=
    BitVec.eq_of_toNat_eq (by have := b1.isLt; zify; rw [ofInt_byte_toNat]; omega)
  rw [u16Pack, h0, h1]

/-- Settles O46: the byte of a number is the number modulo 256. -/
theorem singleBytePrimitives : Obligations.SingleBytePrimitives := by
  intro s
  refine ⟨fun b => rfl, fun v h0 h1 => ⟨BitVec.ofInt 8 v, ?_, ?_⟩, rfl, rfl⟩
  · rw [ofInt_byte_toNat]
    omega
  · exact primitive_of_domain ((u8Domain_iff v).2 ⟨h0, h1⟩) _ s

/-- Settles O47: in either direction the bytes are the two digits of the number to the base 256. -/
theorem u16RoundTrips : Obligations.U16RoundTrips := by
  intro s
  refine ⟨fun b0 b1 => ⟨u16Unpack b0 b1, u16Unpack_toNat b0 b1, rfl, ?pack⟩, fun v h0 h1 =>
    ⟨BitVec.ofInt 8 v, BitVec.ofInt 8 (v / 256), ofInt_byte_toNat v, ?high,
      primitive_of_domain ((u16Domain_iff v).2 ⟨h0, h1⟩) _ s, ?unpack⟩⟩
  case pack =>
    have hv : ((u16Unpack b0 b1).toNat : Int) = b0.toNat + 256 * b1.toNat := by exact_mod_cast u16Unpack_toNat b0 b1
    have hd : u16Domain (u16Unpack b0 b1).toNat = true := by
      have := (u16Unpack b0 b1).isLt
      rw [u16Domain_iff]
      omega
    rw [← u16Pack_eq hv]
    exact primitive_of_domain hd _ s
  case high => rw [ofInt_byte_toNat]; omega
  case unpack =>
    have hw : u16Unpack (BitVec.ofInt 8 v) (BitVec.ofInt 8 (v / 256)) = BitVec.ofNat 16 v.toNat := by
      have hlow := ofInt_byte_toNat v
      have hhigh := ofInt_byte_toNat (v / 256)
      rw [u16Unpack]
      congr 1
      omega
    rw [← hw]
    rfl

/-- Settles O48: the signed value of a 16-bit word is the word, less 65536 from 32768 on. -/
theorem i16IsSignExtended : Obligations.I16IsSignExtended := by
  intro s b0 b1
  have hlt := (u16Unpack b0 b1).isLt
  have hw := u16Unpack_toNat b0 b1
  have hv : i16Unpack b0 b1 = if 2 * (u16Unpack b0 b1).toNat < 2 ^ 16 then ((u16Unpack b0 b1).toNat : Int)
      else (u16Unpack b0 b1).toNat - 65536 :=
    BitVec.toInt_eq_toNat_cond _
  have := b0.isLt
  refine ⟨i16Unpack b0 b1, rfl, ?_⟩
  rw [hv]
  split <;> omega

/-! ## 64-bit words (R96) -/

/-- A 64-bit pattern is the number its eight bytes write to the base 256. -/
theorem bytes64_value (w : BitVec 64) :
    (w.extractLsb' 0 8).toNat + 2 ^ 8 * (w.extractLsb' 8 8).toNat + 2 ^ 16 * (w.extractLsb' 16 8).toNat +
      2 ^ 24 * (w.extractLsb' 24 8).toNat + 2 ^ 32 * (w.extractLsb' 32 8).toNat + 2 ^ 40 * (w.extractLsb' 40 8).toNat +
      2 ^ 48 * (w.extractLsb' 48 8).toNat + 2 ^ 56 * (w.extractLsb' 56 8).toNat = w.toNat := by
  have := w.isLt
  simp only [BitVec.extractLsb'_toNat, Nat.shiftRight_eq_div_pow]
  omega

/-- Settles O49: the eight bytes write the pattern of `v mod 2^64`. -/
theorem i64PacksLittleEndian : Obligations.I64PacksLittleEndian := by
  intro s v h0 h1
  have hv : ((BitVec.ofInt 64 v).toNat : Int) = v % 2 ^ 64 := by
    rw [BitVec.toNat_ofInt]
    omega
  refine ⟨_, _, _, _, _, _, _, _, primitive_of_domain ((i64Domain_iff v).2 ⟨h0, h1⟩) _ s, ?_⟩
  rw [← hv]
  exact_mod_cast bytes64_value (BitVec.ofInt 64 v)

/-! ## Fixed-point numbers (R100, R101, R108, R109) -/

section
variable {v : Q} {n : Int}

theorem floor_of_hundredths (hn : 100 * v = n) : v.floor = n / 100 := by
  have hv : v = (n : Q) / (100 : Nat) := by push_cast; linarith
  rw [hv]
  exact Rat.floor_intCast_div_natCast n 100

theorem rest_of_hundredths (hn : 100 * v = n) : (100 * (v - v.floor)).floor = n % 100 := by
  have hrest : 100 * (v - v.floor) = (n % 100 : Int) := by
    rw [mul_sub, hn, floor_of_hundredths hn, Int.emod_def]
    push_cast
    rfl
  rw [hrest, Rat.floor_intCast]

end

/-- Settles O50: of a number of hundredths up to 25599, the quotient by 100 and the remainder are bytes. -/
theorem highLowScheme : Obligations.HighLowScheme := by
  intro s
  refine ⟨fun h l => rfl, fun v h0 h1 ⟨n, hn⟩ =>
    ⟨_, _, primitive_of_domain ((hlDomain_iff v).2 ⟨h0, h1, n, hn⟩) _ s, ?_⟩⟩
  have hn0 : 0 ≤ n := by
    have : (0 : Q) ≤ n := by linarith
    exact_mod_cast this
  have hn1 : n ≤ 25599 := by
    have : (n : Q) ≤ 25599 := by linarith
    exact_mod_cast this
  rw [rest_of_hundredths hn, floor_of_hundredths hn]
  have hh := ofInt_byte_toNat (n / 100)
  have hl := ofInt_byte_toNat (n % 100)
  generalize (BitVec.ofInt 8 (n / 100)).toNat = h at hh
  generalize (BitVec.ofInt 8 (n % 100)).toNat = l at hl
  have hsum : (100 * h + l : Int) = n := by omega
  have hsumq : (100 * h + l : Q) = n := by exact_mod_cast congrArg (Int.cast : Int → Q) hsum
  exact ⟨by omega, by omega, by linarith⟩

/-- Settles O57: an integer byte of 128 or more is negative, less 256. -/
theorem byteFractionSchemes : Obligations.ByteFractionSchemes := by
  intro s i f
  have hi := byte_toInt i
  refine ⟨fun h => ?pos, fun h => ?neg, rfl⟩
  case pos =>
    have hv : sbUnpack i f = i.toNat + f.toNat / 100 := by
      rw [if_pos h] at hi
      rw [sbUnpack, hi, if_neg (by omega), Int.cast_natCast]
    rw [← hv]
    rfl
  case neg =>
    have hv : sbUnpack i f = i.toNat - 256 - f.toNat / 100 := by
      rw [if_neg (Nat.not_lt.2 h)] at hi
      have := i.isLt
      rw [sbUnpack, hi, if_pos (by omega)]
      push_cast
      rfl
    rw [← hv]
    rfl

/-! ## The motor clamp (R111) -/

theorem clampMotor_eq (v : Int) : clampMotor v = if v < 675 then 675 else if v > 1353 then 1353 else v := rfl

theorem clampMotor_mem (v : Int) : 675 ≤ clampMotor v ∧ clampMotor v ≤ 1353 := by
  rw [clampMotor_eq]
  split
  · omega
  · split <;> omega

theorem clampMotor_clampMotor (v : Int) : clampMotor (clampMotor v) = clampMotor v := by
  obtain ⟨hmin, hmax⟩ := clampMotor_mem v
  rw [clampMotor_eq (clampMotor v), if_neg (by omega), if_neg (by omega)]

/-- Settles O58: the clamped value is in the domain again, and clamping it changes nothing. -/
theorem motorClamp : Obligations.MotorClamp := by
  intro s v h0 h1
  obtain ⟨hmin, hmax⟩ := clampMotor_mem v
  have hw : ((BitVec.ofInt 16 (clampMotor v)).toNat : Int) = clampMotor v := by
    rw [BitVec.toNat_ofInt]
    omega
  refine ⟨BitVec.ofInt 16 (clampMotor v), primitive_of_domain ((clampDomain_iff v).2 ⟨h0, h1⟩) _ s, hw, ?_⟩
  have hexec : exec (.clampMotor (clampMotor v)) s =
      .next (s.emitValue (.u16 (BitVec.ofInt 16 (clampMotor (clampMotor v))))) :=
    primitive_of_domain ((clampDomain_iff _).2 (by omega)) _ s
  rw [hw, hexec, clampMotor_clampMotor]
  rfl

end Sys2Proof.Machine
end

-- The value of a binary32 pattern.
section
/-! SUPPORT. The value of a binary32 pattern (40_numeric_codec.md R104), read from the pattern as a number, and the
plain sum of a coordinate (R106). -/

namespace Sys2Proof.Machine

/-! ## The fields of a pattern, as numbers -/

section
variable (w : BitVec 32)

theorem f32Sign_eq : w.getLsbD 31 = decide (w.toNat / 2 ^ 31 = 1) := by
  have := w.isLt
  rw [BitVec.getLsbD, Nat.testBit_eq_decide_div_mod_eq, decide_eq_decide]
  omega

theorem f32ExponentField_toNat : (w.extractLsb' 23 8).toNat = w.toNat / 2 ^ 23 % 256 := by
  rw [BitVec.extractLsb'_toNat, Nat.shiftRight_eq_div_pow]

theorem f32FractionField_toNat : (w.extractLsb' 0 23).toNat = w.toNat % 2 ^ 23 := by
  rw [BitVec.extractLsb'_toNat, Nat.shiftRight_zero]

theorem f32Value_nan (he : w.toNat / 2 ^ 23 % 256 = 255) (hm : w.toNat % 2 ^ 23 ≠ 0) : f32Value w = .nan := by
  rw [f32Value, f32ExponentField_toNat, f32FractionField_toNat, if_pos he, if_pos hm]

theorem f32Value_inf (he : w.toNat / 2 ^ 23 % 256 = 255) (hm : w.toNat % 2 ^ 23 = 0) :
    f32Value w = if w.toNat / 2 ^ 31 = 1 then .negInf else .posInf := by
  rw [f32Value, f32ExponentField_toNat, f32FractionField_toNat, if_pos he, if_neg (not_not.2 hm), f32Sign_eq]
  simp only [decide_eq_true_eq]

theorem f32Value_subnormal (he : w.toNat / 2 ^ 23 % 256 = 0) :
    f32Value w = .fin (signOf (decide (w.toNat / 2 ^ 31 = 1)) * (w.toNat % 2 ^ 23 : Nat) * pow2 (-149)) := by
  rw [f32Value, f32ExponentField_toNat, f32FractionField_toNat, if_neg (by omega), if_pos he, f32Sign_eq]

theorem f32Value_normal (he : w.toNat / 2 ^ 23 % 256 ≠ 0) (he' : w.toNat / 2 ^ 23 % 256 ≠ 255) :
    f32Value w = .fin (signOf (decide (w.toNat / 2 ^ 31 = 1)) * (2 ^ 23 + w.toNat % 2 ^ 23 : Nat) *
      pow2 ((w.toNat / 2 ^ 23 % 256 : Nat) - 150)) := by
  rw [f32Value, f32ExponentField_toNat, f32FractionField_toNat, if_neg he', if_neg he, f32Sign_eq]

end

theorem signOf_decide (p : Prop) [Decidable p] : signOf (decide p) = if p then -1 else 1 := by
  simp only [signOf, decide_eq_true_eq]

theorem pow2_sub_nat (i k : Nat) : pow2 ((i : Int) - k) = 2 ^ i / 2 ^ k := by
  rw [pow2_eq_zpow, zpow_sub₀ two_ne_zero, zpow_natCast, zpow_natCast]

/-- Settles O51: one equation of `f32Value` for each kind of exponent field. -/
theorem f32UnpackByFields : Obligations.F32UnpackByFields := by
  intro s b0 b1 b2 b3
  refine ⟨f32Value (f32Pattern b0 b1 b2 b3), rfl, ?_⟩
  have hw := f32Pattern_toNat b0 b1 b2 b3
  generalize f32Pattern b0 b1 b2 b3 = w at hw
  simp only [← hw]
  refine ⟨f32Value_nan w, f32Value_inf w, fun he => ?subnormal, fun he he' => ?normal⟩
  case subnormal =>
    rw [f32Value_subnormal w he, signOf_decide, pow2_eq_zpow, zpow_neg, ← div_eq_mul_inv]
    norm_cast
  case normal =>
    have hp : pow2 ((w.toNat / 2 ^ 23 % 256 : Nat) - 150) = 2 ^ (w.toNat / 2 ^ 23 % 256) / 2 ^ 150 := pow2_sub_nat _ 150
    rw [f32Value_normal w he he', signOf_decide, hp, ← mul_div_assoc]
    push_cast
    rfl

/-- Settles O54: the sum leaves an infinity or NaN as it is, and the signed integer byte is its number, less 256 from
128 on. -/
theorem coordinateUnpackIsPlainSum : Obligations.CoordinateUnpackIsPlainSum := by
  intro s i b0 b1 b2 b3
  refine ⟨addInt i.toInt (f32Unpack b0 b1 b2 b3), f32Unpack b0 b1 b2 b3, rfl, rfl, fun q hq => ?_,
    fun h => by rw [h]; rfl, fun h => by rw [h]; rfl, fun h => by rw [h]; rfl⟩
  rw [hq, addInt, byte_toInt]
  push_cast
  rfl

end Sys2Proof.Machine
end

-- F32LE.PACK rounds to the nearest binary32.
section
/-! SUPPORT. `F32LE.PACK` writes the magnitude of its operand as an integer `n` of units `2^(e - 23)`, rounded half to
even (40_numeric_codec.md R103). Against the finite values of binary32 the argument has two halves: a value that is a
multiple of the unit is no nearer because `n` is the nearest integer, and a value that is not lies below `2^e`, which is
itself a multiple of the unit between that value and the operand. -/

namespace Sys2Proof.Machine

/-! ## Powers of two -/

theorem pow2_add (j k : Int) : pow2 (j + k) = pow2 j * pow2 k := by
  simp only [pow2_eq_zpow, zpow_add₀ (two_ne_zero (α := Q))]

theorem pow2_le_pow2_iff {j k : Int} : pow2 j ≤ pow2 k ↔ j ≤ k := by
  rw [pow2_eq_zpow, pow2_eq_zpow, zpow_le_zpow_iff_right₀ one_lt_two]

theorem pow2_lt_pow2_iff {j k : Int} : pow2 j < pow2 k ↔ j < k := by
  rw [pow2_eq_zpow, pow2_eq_zpow, zpow_lt_zpow_iff_right₀ one_lt_two]

theorem pow2_natCast (k : Nat) : pow2 k = 2 ^ k := by
  rw [pow2_eq_zpow, zpow_natCast]

theorem pow2_neg_natCast (k : Nat) : pow2 (-k) = 1 / 2 ^ k := by
  rw [pow2_eq_zpow, zpow_neg, zpow_natCast, one_div]

/-- `2^e` in units of `2^(e - 23)`. -/
theorem pow2_eq_units (e : Int) : pow2 e = 2 ^ 23 * pow2 (e - 23) := by
  have h23 : pow2 23 = 2 ^ 23 := pow2_natCast 23
  rw [← h23, ← pow2_add, add_sub_cancel]

/-! ## Rounding half to even -/

section
variable {t : Q} {k : Int}

theorem le_roundHalfEven (h : (k : Q) ≤ t) : k ≤ roundHalfEven t := by
  obtain ⟨hlow, -⟩ := abs_le.1 (roundHalfEven_spec t).1
  have hlt : (k : Q) < (roundHalfEven t + 1 : Int) := by push_cast; linarith
  exact Int.lt_add_one_iff.1 (by exact_mod_cast hlt)

theorem roundHalfEven_lt (h : t < k - 1 / 2) : roundHalfEven t < k := by
  obtain ⟨-, hup⟩ := abs_le.1 (roundHalfEven_spec t).1
  have hlt : (roundHalfEven t : Q) < k := by linarith
  exact_mod_cast hlt

theorem roundHalfEven_le (h : t ≤ k) : roundHalfEven t ≤ k :=
  Int.lt_add_one_iff.1 (roundHalfEven_lt (by push_cast; linarith))

theorem roundHalfEven_intCast (k : Int) : roundHalfEven k = k :=
  le_antisymm (roundHalfEven_le (le_refl _)) (le_roundHalfEven (le_refl _))

/-- No integer is nearer, and the rounded one is even where another is as near. -/
theorem roundHalfEven_nearest (t : Q) (k : Int) : |(roundHalfEven t : Q) - t| ≤ |k - t| ∧
    (|k - t| = |(roundHalfEven t : Q) - t| → k ≠ roundHalfEven t → roundHalfEven t % 2 = 0) := by
  obtain ⟨hhalf, htie⟩ := roundHalfEven_spec t
  by_cases hk : k = roundHalfEven t
  · exact ⟨by rw [hk], fun _ hne => absurd hk hne⟩
  · have hone : (1 : Q) ≤ |(roundHalfEven t : Q) - k| := by
      exact_mod_cast Int.one_le_abs (sub_ne_zero.2 (Ne.symm hk))
    have htri : |(roundHalfEven t : Q) - k| ≤ |(roundHalfEven t : Q) - t| + |t - k| := abs_sub_le _ _ _
    rw [abs_sub_comm t] at htri
    exact ⟨by linarith, fun heq _ => htie (by linarith)⟩

end

/-! ## The finite values of binary32 -/

/-- A finite value is a multiple of a unit, with a significand of at most 24 bits. -/
theorem f32Value_fin {w : BitVec 32} {x : Q} (h : f32Value w = .fin x) :
    ∃ k j : Int, |(k : Q)| < 2 ^ 24 ∧ -149 ≤ j ∧ x = k * pow2 j := by
  have hsign : ∀ m : Nat, m < 2 ^ 24 → ∃ k : Int, |(k : Q)| < 2 ^ 24 ∧
      signOf (decide (w.toNat / 2 ^ 31 = 1)) * m = k := by
    intro m hm
    have hmq : (m : Q) < 2 ^ 24 := by exact_mod_cast hm
    rw [signOf_decide]
    split
    · exact ⟨-m, by simpa using hmq, by simp⟩
    · exact ⟨m, by simpa using hmq, by simp⟩
  by_cases he : w.toNat / 2 ^ 23 % 256 = 0
  · obtain ⟨k, hk, heq⟩ := hsign (w.toNat % 2 ^ 23) (by omega)
    rw [f32Value_subnormal w he, heq] at h
    exact ⟨k, -149, hk, le_refl _, (XReal.fin.inj h).symm⟩
  · by_cases he' : w.toNat / 2 ^ 23 % 256 = 255
    · by_cases hm : w.toNat % 2 ^ 23 = 0
      · rw [f32Value_inf w he' hm] at h
        split at h <;> cases h
      · rw [f32Value_nan w he' hm] at h
        cases h
    · obtain ⟨k, hk, heq⟩ := hsign (2 ^ 23 + w.toNat % 2 ^ 23) (by omega)
      rw [f32Value_normal w he he', heq] at h
      exact ⟨k, _, hk, by omega, (XReal.fin.inj h).symm⟩

/-- Where the finite values of binary32 lie for the exponent `e`: on the multiples of its unit, or below `2^e`. -/
def OnGrid (e : Int) (x : Q) : Prop := (∃ k : Int, x = k * pow2 (e - 23)) ∨ (e ≠ -126 ∧ |x| < pow2 e)

theorem OnGrid.signOf_mul {e : Int} {x : Q} (h : OnGrid e x) (s : Bool) : OnGrid e (signOf s * x) := by
  cases s with
  | false => simpa [signOf] using h
  | true =>
    rw [signOf, if_pos rfl, neg_one_mul]
    refine h.imp (fun ⟨k, hk⟩ => ⟨-k, ?_⟩) (fun ⟨he, hx⟩ => ⟨he, ?_⟩)
    · rw [hk, Int.cast_neg, neg_mul]
    · rwa [abs_neg]

theorem onGrid_of_f32Value {w : BitVec 32} {x : Q} (h : f32Value w = .fin x) (e : Int) : OnGrid e x := by
  obtain ⟨k, j, hk, hj, rfl⟩ := f32Value_fin h
  by_cases hje : e - 23 ≤ j
  · left
    obtain ⟨d, hd⟩ := Int.eq_ofNat_of_zero_le (sub_nonneg.2 hje)
    refine ⟨k * 2 ^ d, ?_⟩
    rw [show j = d + (e - 23) by omega, pow2_add, pow2_natCast]
    push_cast
    ring
  · right
    have hsucc : pow2 (j + 1) ≤ pow2 (e - 23) := pow2_le_pow2_iff.2 (by omega)
    have hpos := pow2_pos j
    rw [pow2_succ] at hsucc
    refine ⟨by omega, ?_⟩
    calc |(k : Q) * pow2 j| = |(k : Q)| * pow2 j := by rw [abs_mul, abs_of_pos hpos]
      _ < 2 ^ 24 * pow2 j := mul_lt_mul_of_pos_right hk hpos
      _ ≤ 2 ^ 23 * pow2 (e - 23) := by linarith
      _ = pow2 e := (pow2_eq_units e).symm

/-! ## The significand and the exponent of R103 -/

/-- A magnitude in units of `2^(e - 23)`, rounded. -/
def significand (a : Q) (e : Int) : Int := roundHalfEven (a / pow2 (e - 23))

theorem abs_mul_sub_eq_mul {u : Q} (hu : 0 < u) (a : Q) (k : Int) : |k * u - a| = |k - a / u| * u := by
  rw [← abs_of_pos hu, ← abs_mul, sub_mul, abs_of_pos hu, div_mul_cancel₀ a hu.ne']

theorem units_error (a : Q) (e : Int) :
    |significand a e * pow2 (e - 23) - a| ≤ pow2 (e - 24) := by
  have hpos := pow2_pos (e - 23)
  have hhalf : pow2 (e - 23) = 2 * pow2 (e - 24) := by rw [← pow2_succ]; congr 1; omega
  rw [abs_mul_sub_eq_mul hpos, significand]
  have := mul_le_mul_of_nonneg_right (roundHalfEven_spec (a / pow2 (e - 23))).1 hpos.le
  linarith

/-- No multiple of the unit is nearer, and the significand is even where another is as near. -/
theorem units_nearest (a : Q) (e k : Int) :
    |significand a e * pow2 (e - 23) - a| ≤ |k * pow2 (e - 23) - a| ∧
    (|k * pow2 (e - 23) - a| = |significand a e * pow2 (e - 23) - a| →
      k ≠ significand a e → significand a e % 2 = 0) := by
  have hpos := pow2_pos (e - 23)
  obtain ⟨hle, heven⟩ := roundHalfEven_nearest (a / pow2 (e - 23)) k
  rw [abs_mul_sub_eq_mul hpos, abs_mul_sub_eq_mul hpos]
  exact ⟨mul_le_mul_of_nonneg_right hle hpos.le, fun heq => heven (mul_right_cancel₀ hpos.ne' heq)⟩

section
variable {a : Q} {e : Int}

/-- The same against every value on the grid: one below `2^e` is farther away than `2^e`, a multiple of the unit. -/
theorem onGrid_nearest (ha : e = -126 ∨ pow2 e ≤ a) {x : Q} (hx : OnGrid e x) :
    |significand a e * pow2 (e - 23) - a| ≤ |x - a| ∧
    (|x - a| = |significand a e * pow2 (e - 23) - a| →
      x ≠ significand a e * pow2 (e - 23) → significand a e % 2 = 0) := by
  obtain ⟨k, rfl⟩ | ⟨hne, hx⟩ := hx
  · obtain ⟨hle, heven⟩ := units_nearest a e k
    exact ⟨hle, fun heq hne => heven heq fun hk => hne (by rw [hk])⟩
  · have hea := ha.resolve_left hne
    have hxe := (le_abs_self x).trans_lt hx
    have hle := (units_nearest a e (2 ^ 23)).1
    rw [show ((2 ^ 23 : Int) : Q) = 2 ^ 23 by norm_cast, ← pow2_eq_units, abs_of_nonpos (sub_nonpos.2 hea)] at hle
    have hfar : |x - a| = a - x := by rw [abs_of_neg (by linarith), neg_sub]
    rw [hfar]
    exact ⟨by linarith, fun heq => absurd heq (by linarith)⟩

theorem f32Exponent_ge (a : Q) : -126 ≤ f32Exponent a := le_max_right _ _

theorem f32Exponent_eq_or (a : Q) : f32Exponent a = -126 ∨ f32Exponent a = floorLog2 a := (max_choice _ _).symm

theorem pow2_f32Exponent_le (ha : 0 < a) : f32Exponent a = -126 ∨ pow2 (f32Exponent a) ≤ a :=
  (f32Exponent_eq_or a).imp id fun h => by rw [h]; exact (floorLog2_spec a ha).1

theorem lt_pow2_f32Exponent_succ (ha : 0 < a) : a < pow2 (f32Exponent a + 1) :=
  (floorLog2_spec a ha).2.trans_le (pow2_le_pow2_iff.2 (add_le_add_left (le_max_left _ _) 1))

theorem significand_nonneg (ha : 0 < a) : 0 ≤ significand a e :=
  le_roundHalfEven (by exact_mod_cast (div_pos ha (pow2_pos _)).le)

/-- The significand is at most `2^24`, after rounding up to the next binade (R103). -/
theorem significand_le (ha : a < pow2 (e + 1)) : significand a e ≤ 2 ^ 24 := by
  rw [pow2_succ, pow2_eq_units] at ha
  refine roundHalfEven_le ((div_le_iff₀ (pow2_pos _)).2 ?_)
  push_cast
  linarith

/-- From `2^e` on the significand has its leading bit (R103). -/
theorem le_significand (ha : pow2 e ≤ a) : 2 ^ 23 ≤ significand a e := by
  rw [pow2_eq_units] at ha
  refine le_roundHalfEven ((le_div_iff₀ (pow2_pos _)).2 ?_)
  exact_mod_cast ha

/-- In the domain the rounding never reaches `2^128` (R103). -/
theorem exponent_le_of_significand_eq (ha : a < 2 ^ 128 - 2 ^ 103) (he : e ≤ 127)
    (htop : significand a e = 2 ^ 24) : e ≤ 126 := by
  by_contra hne
  obtain rfl : e = 127 := by omega
  refine (roundHalfEven_lt ?_).ne htop
  have h104 : pow2 (127 - 23) = 2 ^ 104 := pow2_natCast 104
  rw [h104, div_lt_iff₀ (by positivity)]
  norm_num at ha ⊢
  linarith

theorem f32Exponent_le_of_domain (ha : 0 < a) (hdom : a < 2 ^ 128 - 2 ^ 103) : f32Exponent a ≤ 127 := by
  obtain h | h := pow2_f32Exponent_le ha
  · omega
  · have h128 : pow2 128 = 2 ^ 128 := pow2_natCast 128
    have hlt : pow2 (f32Exponent a) < pow2 128 := by rw [h128]; linarith [pow_pos (two_pos (α := Q)) 103]
    have := pow2_lt_pow2_iff.1 hlt
    omega

end

/-! ## The pattern built from sign, significand and exponent (R103) -/

/-- Bit 31 is the sign, and the lowest bit is that of the significand. -/
theorem f32Compose_bits (s : Bool) (n : Nat) {e : Int} (hn : n ≤ 2 ^ 24) (he : e ≤ 127)
    (hmax : n = 2 ^ 24 → e ≤ 126) :
    (2 ^ 31 ≤ (f32Compose s n e).toNat ↔ s = true) ∧ (f32Compose s n e).toNat % 2 = n % 2 := by
  have hrest : ∃ r, r < 2 ^ 31 ∧ r % 2 = n % 2 ∧
      f32Compose s n e = BitVec.ofNat 32 ((if s then 2 ^ 31 else 0) + r) := by
    unfold f32Compose
    by_cases htop : n = 2 ^ 24
    · have := hmax htop
      exact ⟨(e + 128).toNat * 2 ^ 23, by omega, by omega, if_pos htop⟩
    · by_cases hsub : n < 2 ^ 23
      · exact ⟨n, by omega, rfl, (if_neg htop).trans (if_pos hsub)⟩
      · refine ⟨(e + 127).toNat * 2 ^ 23 + (n - 2 ^ 23), by omega, by omega,
          (if_neg htop).trans ((if_neg hsub).trans ?_)⟩
        rw [← Nat.add_assoc]
  obtain ⟨r, hr, hparity, heq⟩ := hrest
  have hw : (f32Compose s n e).toNat = (if s then 2 ^ 31 else 0) + r := by
    rw [heq, BitVec.toNat_ofNat, Nat.mod_eq_of_lt]
    split <;> omega
  rw [hw]
  cases s with
  | false => exact ⟨iff_of_false (by simpa using hr) Bool.false_ne_true, by simpa using hparity⟩
  | true => exact ⟨iff_of_true (Nat.le_add_right _ _) rfl, by rw [if_pos rfl]; omega⟩

/-! ## What F32LE.PACK computes -/

/-- The value of sign of `q` and magnitude `n * 2^(e - 23)`. -/
def signedUnits (q : Q) (n : Nat) (e : Int) : Q := signOf (decide (q < 0)) * (n * pow2 (e - 23))

/-- `w` is the pattern of the value `signedUnits q n e`, where `n` is the magnitude of `q` in that unit,
rounded, and `e` is the exponent of `q` or the least one. -/
structure IsRounding (q : Q) (w : BitVec 32) (n : Nat) (e : Int) : Prop where
  exponent_le : e = -126 ∨ pow2 e ≤ |q|
  significand_eq : (n : Int) = significand |q| e
  value : f32Value w = .fin (signedUnits q n e)
  sign : 2 ^ 31 ≤ w.toNat ↔ q < 0
  parity : w.toNat % 2 = n % 2

theorem isRounding_zero : IsRounding 0 0 0 (-126) where
  exponent_le := .inl rfl
  significand_eq := by rw [significand, abs_zero, zero_div]; exact (roundHalfEven_intCast 0).symm
  value := by rw [f32Value_subnormal 0 rfl, signedUnits]; norm_num
  sign := by decide
  parity := rfl

/-- Every operand in the domain is rounded so. -/
theorem f32Round_isRounding {q : Q} (hq : |q| < 2 ^ 128 - 2 ^ 103) : ∃ n e, IsRounding q (f32Round q) n e := by
  by_cases h0 : q = 0
  · subst h0
    exact ⟨0, -126, isRounding_zero⟩
  · have ha := abs_pos.2 h0
    have hround : f32Round q = f32Compose (decide (q < 0)) (significand |q| (f32Exponent |q|)).toNat
        (f32Exponent |q|) := if_neg h0
    have hge := f32Exponent_ge |q|
    have hle := f32Exponent_le_of_domain ha hq
    have hexp := pow2_f32Exponent_le ha
    have hup := significand_le (lt_pow2_f32Exponent_succ ha)
    generalize f32Exponent |q| = e at hround hge hle hexp hup
    have hmin : significand |q| e < 2 ^ 23 → e = -126 :=
      fun hlt => hexp.resolve_right fun h => not_le.2 hlt (le_significand h)
    have hmax := exponent_le_of_significand_eq hq hle
    have hn := Int.toNat_of_nonneg (significand_nonneg (e := e) ha)
    generalize (significand |q| e).toNat = n at hround hn
    obtain ⟨hsign, hparity⟩ := f32Compose_bits (decide (q < 0)) n (by omega) hle (by omega)
    have hvalue := f32Value_compose (decide (q < 0)) n e (by omega) hge hle (by omega) (by omega)
    rw [← hround] at hsign hparity hvalue
    exact ⟨n, e, hexp, hn, hvalue, hsign.trans decide_eq_true_iff, hparity⟩

/-- A sign applied to a magnitude, against the operand of that sign. -/
theorem abs_signOf_mul_sub (q y : Q) : |signOf (decide (q < 0)) * y - q| = |y - (|q|)| := by
  rw [signOf_decide]
  split
  · next h => rw [abs_of_neg h, ← abs_neg]; congr 1; ring
  · next h => rw [abs_of_nonneg (not_lt.1 h), one_mul]

theorem signOf_mul_self_mul (s : Bool) (y : Q) : signOf s * (signOf s * y) = y := by
  cases s <;> simp [signOf]

namespace IsRounding

variable {q : Q} {w : BitVec 32} {n : Nat} {e : Int} (h : IsRounding q w n e)
include h

theorem significand_cast : (n : Q) = significand |q| e := by
  rw [← h.significand_eq, Int.cast_natCast]

/-- The rounding error is at most half a unit. -/
theorem error : |signedUnits q n e - q| ≤ pow2 (e - 24) := by
  rw [signedUnits, abs_signOf_mul_sub, h.significand_cast]
  exact units_error |q| e

/-- No finite value is nearer, and the pattern is even where another is as near. -/
theorem nearest {w' : BitVec 32} {x : Q} (hx : f32Value w' = .fin x) :
    |signedUnits q n e - q| ≤ |x - q| ∧
    (|x - q| = |signedUnits q n e - q| →
      x ≠ signedUnits q n e → w.toNat % 2 = 0) := by
  obtain ⟨hle, heven⟩ := onGrid_nearest h.exponent_le
    ((onGrid_of_f32Value hx e).signOf_mul (decide (q < 0)))
  rw [← abs_signOf_mul_sub q (signOf _ * x), signOf_mul_self_mul, ← h.significand_cast] at hle heven
  rw [← h.significand_eq] at heven
  rw [signedUnits, abs_signOf_mul_sub]
  refine ⟨hle, fun heq hne => ?_⟩
  rw [h.parity]
  have := heven heq fun hx' => hne (by rw [← hx', signOf_mul_self_mul])
  omega

end IsRounding

/-! ## The bytes of a packed pattern -/

theorem f32Unpack_bytes (w : BitVec 32) :
    f32Unpack (w.extractLsb' 0 8) (w.extractLsb' 8 8) (w.extractLsb' 16 8) (w.extractLsb' 24 8) = f32Value w := by
  rw [f32Unpack, f32Pattern_bytes32]

theorem exec_f32Pack {q : Q} (hq : |q| < 2 ^ 128 - 2 ^ 103) (s : State) :
    exec (.f32Pack q) s = .next (s.emitValue (.bytes (bytes32 (f32Round q)))) :=
  primitive_of_domain ((f32Domain_iff q).2 hq) _ s

theorem exec_f32Unpack_bytes (w : BitVec 32) (s : State) :
    exec (.f32Unpack (w.extractLsb' 0 8) (w.extractLsb' 8 8) (w.extractLsb' 16 8) (w.extractLsb' 24 8)) s =
      .next (s.emitValue (.xreal (f32Value w))) := by
  rw [← f32Unpack_bytes]
  rfl

/-- Settles O52: half a unit is at most a relative `2^-24` from `2^-126` on, and `2^-150` below. -/
theorem f32PackErrorBound : Obligations.F32PackErrorBound := by
  intro s q hq
  obtain ⟨n, e, hr⟩ := f32Round_isRounding hq
  have hunpack := exec_f32Unpack_bytes (f32Round q) s
  rw [hr.value] at hunpack
  refine ⟨_, _, _, _, _, exec_f32Pack hq s, hunpack, ?_⟩
  have hrel : pow2 e ≤ |q| → pow2 (e - 24) ≤ |q| / 2 ^ 24 := by
    intro h
    have h24 : pow2 24 = 2 ^ 24 := pow2_natCast 24
    rwa [le_div_iff₀ (by positivity), ← h24, ← pow2_add, sub_add_cancel]
  have h126 : pow2 (-126) = 1 / 2 ^ 126 := pow2_neg_natCast 126
  have h150 : pow2 (-126 - 24) = 1 / 2 ^ 150 := pow2_neg_natCast 150
  obtain rfl | he := hr.exponent_le
  · rw [h126] at hrel
    exact ⟨hr.error.trans (h150 ▸ le_max_right _ _), fun h => hr.error.trans (hrel h)⟩
  · exact ⟨hr.error.trans ((hrel he).trans (le_max_left _ _)), fun _ => hr.error.trans (hrel he)⟩

/-- Settles O53: the finite values lie on the grid of the rounding; the lowest and the highest bit stand in the first
and the last byte. -/
theorem f32PackIsNearestEven : Obligations.F32PackIsNearestEven := by
  intro s q hq
  obtain ⟨n, e, hr⟩ := f32Round_isRounding hq
  have hlow : ((f32Round q).extractLsb' 0 8).toNat % 2 = (f32Round q).toNat % 2 := by
    rw [BitVec.extractLsb'_toNat, Nat.shiftRight_zero]
    omega
  have hhigh : 128 ≤ ((f32Round q).extractLsb' 24 8).toNat ↔ 2 ^ 31 ≤ (f32Round q).toNat := by
    have := (f32Round q).isLt
    rw [BitVec.extractLsb'_toNat, Nat.shiftRight_eq_div_pow]
    omega
  refine ⟨_, _, _, _, _, exec_f32Pack hq s, (f32Unpack_bytes _).trans hr.value, hhigh.trans hr.sign, ?_⟩
  intro c0 c1 c2 c3 x hx
  rw [hlow]
  exact hr.nearest hx

end Sys2Proof.Machine
end

-- Coordinates.
section
/-! SUPPORT. `SF.PACK` and its round trip (40_numeric_codec.md R107, R112). -/

namespace Sys2Proof.Machine

/-- The rest of a coordinate behind its integer part is in the domain of `F32LE.PACK`. -/
theorem abs_lt_f32Limit_of_abs_lt_one {r : Q} (h : |r| < 1) : |r| < 2 ^ 128 - 2 ^ 103 := by
  refine h.trans ?_
  norm_num

/-- Settles O55: the integer part is `trunc0 v`. -/
theorem coordinatePackSplitsTowardZero : Obligations.CoordinatePackSplitsTowardZero := by
  intro s v
  obtain ⟨hlt, hpos, hneg⟩ := trunc0_spec v
  exact ⟨trunc0 v, _, _, _, _, _, hlt, hpos, hneg, ofInt_byte_toNat _, rfl,
    exec_f32Pack (abs_lt_f32Limit_of_abs_lt_one hlt) s⟩

/-- The signed byte of an integer part that fits is that integer part. -/
theorem ofInt_trunc0_toInt {v : Q} (h0 : -128 < v) (h1 : v < 128) : (BitVec.ofInt 8 (trunc0 v)).toInt = trunc0 v := by
  obtain ⟨hlt, hpos, hneg⟩ := trunc0_spec v
  have hbounds : -128 ≤ trunc0 v ∧ trunc0 v < 128 := by
    obtain h | h := le_total 0 v
    · obtain ⟨hrest, hn⟩ := hpos h
      have : (trunc0 v : Q) < (128 : Int) := by push_cast; linarith
      exact ⟨by omega, by exact_mod_cast this⟩
    · obtain ⟨hrest, hn⟩ := hneg h
      have : ((-128 : Int) : Q) < trunc0 v := by push_cast; linarith
      exact ⟨le_of_lt (by exact_mod_cast this), by omega⟩
  exact BitVec.toInt_ofInt_eq_self (by norm_num) hbounds.1 hbounds.2

/-- Below magnitude 1 the exponent is negative, so half a unit is at most `2^-25`. -/
theorem IsRounding.error_of_abs_lt_one {q : Q} {w : BitVec 32} {n : Nat} {e : Int} (h : IsRounding q w n e)
    (hq : |q| < 1) : |signedUnits q n e - q| ≤ 1 / 2 ^ 25 := by
  have he : e ≤ -1 := by
    obtain he | he := h.exponent_le
    · omega
    · have h0 : pow2 0 = 1 := pow2_natCast 0
      have := pow2_lt_pow2_iff.1 (he.trans_lt (hq.trans_eq h0.symm))
      omega
  have h25 : pow2 (-25) = 1 / 2 ^ 25 := pow2_neg_natCast 25
  exact h.error.trans (h25 ▸ pow2_le_pow2_iff.2 (by omega))

theorem exec_sfUnpack_bytes (i : Byte) {w : BitVec 32} {r : Q} (h : f32Value w = .fin r) (s : State) :
    exec (.sfUnpack i (w.extractLsb' 0 8) (w.extractLsb' 8 8) (w.extractLsb' 16 8) (w.extractLsb' 24 8)) s =
      .next (s.emitValue (.xreal (.fin (i.toInt + r)))) := by
  have hsum : addInt i.toInt (f32Value w) = .fin (i.toInt + r) := by rw [h]; rfl
  rw [← hsum, ← f32Unpack_bytes]
  rfl

/-- Settles O56: the integer byte comes back exactly, and the rest, below 1, within half a unit. -/
theorem coordinateRoundTrip : Obligations.CoordinateRoundTrip := by
  intro s v h0 h1
  have hlt := (trunc0_spec v).1
  obtain ⟨n, e, hr⟩ := f32Round_isRounding (abs_lt_f32Limit_of_abs_lt_one hlt)
  have hunpack := exec_sfUnpack_bytes (BitVec.ofInt 8 (trunc0 v)) hr.value s
  rw [ofInt_trunc0_toInt h0 h1] at hunpack
  refine ⟨_, _, _, _, _, _, rfl, hunpack, ?_⟩
  rw [add_comm, add_sub_assoc, ← neg_sub v, ← sub_eq_add_neg]
  exact hr.error_of_abs_lt_one hlt

end Sys2Proof.Machine
end

-- The reference algorithm on a stream.
section
/-! SUPPORT. What `feed_ref` gives (41_framer.md R130): on a stream cut in two, on the first bytes of a frame, on a whole
frame, and behind garbage; and where the frames it finds and the bytes it keeps come from. -/

namespace Sys2Proof.Machine

/-! ## A stream cut in two (41_framer.md R129) -/

theorem feedRef_append (b xs ys : List Byte) : feedRef b (xs ++ ys) =
    ((feedRef (feedRef b xs).1 ys).1, (feedRef b xs).2 ++ (feedRef (feedRef b xs).1 ys).2) := by
  have h := settle_append _ (b ++ xs) ys (Nat.le_refl _)
  rwa [List.append_assoc] at h

theorem feedRef_cons (b : List Byte) (x : Byte) (xs : List Byte) : feedRef b (x :: xs) =
    ((feedRef (feedRef b [x]).1 xs).1, (feedRef b [x]).2 ++ (feedRef (feedRef b [x]).1 xs).2) :=
  feedRef_append b [x] xs

/-- Where the bytes behind the buffer leave it settled, `feed_ref` only appends them. -/
theorem feedRef_of_settled {b xs : List Byte} (h : bufferSettled (b ++ xs) = true) :
    feedRef b xs = (b ++ xs, []) :=
  settle_settled_id _ h

theorem feedRef_nil {b : List Byte} (h : bufferSettled b = true) : feedRef b [] = (b, []) := by
  rw [feedRef_of_settled (by rwa [List.append_nil]), List.append_nil]

/-! ## A valid frame (30_encoding.md R61) -/

theorem validFrame_iff {f : List Byte} : validFrame f = true ↔ ∃ p, f = 0xFF :: 0xFE :: p ∧ p.length = 63 := by
  constructor
  · intro h
    match f, h with
    | a :: c :: p, h =>
      obtain ⟨hlen, rfl, rfl⟩ : p.length = 63 ∧ a = 0xFF ∧ c = 0xFE := by simpa [validFrame] using h
      exact ⟨p, rfl, hlen⟩
  · rintro ⟨p, rfl, hp⟩
    simp [validFrame, hp]

theorem validFrame_length {f : List Byte} (h : validFrame f = true) : f.length = 65 := by
  obtain ⟨p, rfl, hp⟩ := validFrame_iff.1 h
  simp [hp]

theorem bufferSettled_marker {p : List Byte} (hp : p.length ≤ 62) : bufferSettled (0xFF :: 0xFE :: p) = true := by
  simp [bufferSettled]
  omega

/-- A frame with its end missing is a settled buffer. -/
theorem bufferSettled_of_validFrame_append {xs ys : List Byte} (h : validFrame (xs ++ ys) = true) (hys : ys ≠ []) :
    bufferSettled xs = true := by
  obtain ⟨p, heq, hp⟩ := validFrame_iff.1 h
  match xs, heq with
  | [], _ => rfl
  | [_], _ => rfl
  | a :: c :: q, heq =>
    obtain ⟨rfl, rfl, rfl⟩ : a = 0xFF ∧ c = 0xFE ∧ q ++ ys = p := by simpa using heq
    have hpos := List.length_pos_iff.2 hys
    rw [List.length_append] at hp
    exact bufferSettled_marker (by omega)

theorem settle_of_validFrame {f : List Byte} (h : validFrame f = true) : settle f = ([], [f]) := by
  obtain ⟨p, rfl, hp⟩ := validFrame_iff.1 h
  have hready : phase (0xFF :: 0xFE :: p) = .ready := by rw [phase_cons]; simp [hp]
  have htake : p.take 63 = p := List.take_of_length_le (Nat.le_of_eq hp)
  have hdrop : p.drop 63 = [] := List.drop_eq_nil_of_le (Nat.le_of_eq hp)
  rw [settle_eq, hready]
  simp [htake, hdrop, settle_settled_id [] rfl]

/-- Where the bytes behind the buffer complete a frame, `feed_ref` empties the buffer and finds that frame. -/
theorem feedRef_of_validFrame {b xs : List Byte} (h : validFrame (b ++ xs) = true) :
    feedRef b xs = ([], [b ++ xs]) :=
  settle_of_validFrame h

/-! ## Garbage (41_framer.md R125, R134) -/

/-- A front byte that does not begin a marker pair is dropped. -/
theorem settle_of_not_marker {a c : Byte} {rest : List Byte} (h : ¬ (a = 0xFF ∧ c = 0xFE)) :
    settle (a :: c :: rest) = settle (c :: rest) := by
  rw [settle_eq, phase_cons, if_neg h]
  rfl

/-- Garbage without a marker pair is dropped up to the frame: even an `FF` at its end, which `FF` follows. -/
theorem settle_garbage_append {g f : List Byte} (hg : ¬ [0xFF, 0xFE] <:+: g) (hf : validFrame f = true) :
    settle (g ++ f) = ([], [f]) := by
  induction g with
  | nil => exact settle_of_validFrame hf
  | cons a g ih =>
    rw [← ih fun h => hg (List.infix_cons h)]
    match g, hg with
    | [], _ =>
      obtain ⟨p, rfl, -⟩ := validFrame_iff.1 hf
      exact settle_of_not_marker (by simp)
    | c :: g, hg =>
      refine settle_of_not_marker ?_
      rintro ⟨rfl, rfl⟩
      exact hg ⟨[], g, rfl⟩

/-! ## Where the bytes come from (41_framer.md R132, R133) -/

theorem feedRefLoop_frames_infix (k : Nat) (b : List Byte) : ∀ f ∈ (feedRefLoop k b).2, f <:+: b := by
  induction k generalizing b with
  | zero => exact List.forall_mem_nil _
  | succ k ih =>
    have hdrop : ∀ n, ∀ f ∈ (feedRefLoop k (b.drop n)).2, f <:+: b :=
      fun n f hf => (ih _ f hf).trans (List.drop_suffix n b).isInfix
    rw [feedRefLoop_succ]
    cases phase b with
    | idle => exact List.forall_mem_nil _
    | wait => exact List.forall_mem_nil _
    | hunt => exact hdrop 1
    | ready => exact List.forall_mem_cons.2 ⟨(List.take_prefix _ b).isInfix, hdrop _⟩

theorem feedRefLoop_sublist (k : Nat) (b : List Byte) :
    ((feedRefLoop k b).2.flatten ++ (feedRefLoop k b).1).Sublist b := by
  induction k generalizing b with
  | zero => exact List.Sublist.refl b
  | succ k ih =>
    rw [feedRefLoop_succ]
    cases phase b with
    | idle => exact List.Sublist.refl b
    | wait => exact List.Sublist.refl b
    | hunt => exact (ih _).trans (List.drop_sublist 1 b)
    | ready =>
      rw [List.flatten_cons, List.append_assoc]
      have h := (List.Sublist.refl (b.take Params.rxLen)).append (ih (b.drop Params.rxLen))
      rwa [List.take_append_drop] at h

theorem feedRefLoop_flatten_length (k : Nat) (b : List Byte) :
    (feedRefLoop k b).2.flatten.length = 65 * (feedRefLoop k b).2.length := by
  have h65 : ∀ n ∈ (feedRefLoop k b).2.map List.length, n = 65 :=
    List.forall_mem_map.2 fun f hf => validFrame_length (feedRefLoop_frames k b f hf)
  rw [List.length_flatten, List.sum_eq_card_nsmul _ _ h65, List.length_map, smul_eq_mul, Nat.mul_comm]

/-- A settled buffer and one byte are at most 65 bytes: no more than one frame (10_state.md R22). -/
theorem feedRef_byte_frames_le_one {b : List Byte} (h : bufferSettled b = true) (x : Byte) :
    (feedRef b [x]).2.length ≤ 1 := by
  have hroom := settled_length b h
  have hsub : (feedRef b [x]).2.flatten.length ≤ (b ++ [x]).length :=
    ((List.sublist_append_left ..).trans (feedRefLoop_sublist _ _)).length_le
  have hflat : (feedRef b [x]).2.flatten.length = 65 * (feedRef b [x]).2.length := feedRefLoop_flatten_length _ _
  rw [hflat, List.length_append, List.length_singleton] at hsub
  omega

end Sys2Proof.Machine
end

-- The feeds.
section
/-! SUPPORT. FEEDB and FEED run `feed_ref` on the buffer (41_framer.md R128, R129); the statements about the framer
follow from what `feed_ref` gives. -/

namespace Sys2Proof.Machine

variable {s : State}

theorem feedByte_receive_feedRef (s : State) (b : Byte) (bs : List Byte) :
    (feedByte s b).receive (feedRef (feedByte s b).buf bs).1 (feedRef (feedByte s b).buf bs).2 =
      s.receive (feedRef s.buf (b :: bs)).1 (feedRef s.buf (b :: bs)).2 := by
  rw [feedByte_eq_receive, State.receive_receive, State.receive_buf, feedRef_cons s.buf b bs]

/-- From a settled buffer the FEEDBs of a stream are `feed_ref` on the whole of it (41_framer.md R129). -/
theorem feedBytes_eq_receive (h : bufferSettled s.buf = true) (bs : List Byte) :
    feedBytes s bs = s.receive (feedRef s.buf bs).1 (feedRef s.buf bs).2 := by
  induction bs generalizing s with
  | nil => rw [feedRef_nil h, State.receive_nil]; rfl
  | cons b bs ih => rw [feedBytes_cons, ih (feedByte_settled s b), feedByte_receive_feedRef]

/-- On any buffer FEED runs the loop of `feed_ref`: to its end if there is a byte, and not at all if there is none. -/
theorem feedBytes_eq_receive_loop (s : State) (bs : List Byte) : ∃ k,
    feedBytes s bs = s.receive (feedRefLoop k (s.buf ++ bs)).1 (feedRefLoop k (s.buf ++ bs)).2 := by
  match bs with
  | [] => exact ⟨0, by simp [feedRefLoop, State.receive_nil]⟩
  | b :: bs =>
    refine ⟨(s.buf ++ b :: bs).length, ?_⟩
    rw [feedBytes_cons, feedBytes_eq_receive (feedByte_settled s b), feedByte_receive_feedRef]
    rfl

theorem exec_feed (hr : s.rstDone = true) (bs : List Byte) : exec (.feed bs) s = .next (feedBytes s bs) :=
  (afterReset_next_iff ..).2 ⟨hr, rfl⟩

theorem exec_feedb (hr : s.rstDone = true) (b : Byte) :
    exec (.feedb b) s = .next (s.receive (feedRef s.buf [b]).1 (feedRef s.buf [b]).2) :=
  (afterReset_next_iff ..).2 ⟨hr, (feedByte_eq_receive s b).symm⟩

theorem exec_feed_of_settled (hr : s.rstDone = true) (h : bufferSettled s.buf = true) (bs : List Byte) :
    exec (.feed bs) s = .next (s.receive (feedRef s.buf bs).1 (feedRef s.buf bs).2) := by
  rw [exec_feed hr, feedBytes_eq_receive h]

/-- The last bytes of a frame: the buffer is emptied, the frame delivered and decoded. -/
theorem exec_feed_of_validFrame {bs : List Byte} (hr : s.rstDone = true) (h : bufferSettled s.buf = true)
    (hf : validFrame (s.buf ++ bs) = true) : exec (.feed bs) s = .next (s.receive [] [s.buf ++ bs]) := by
  rw [exec_feed_of_settled hr h, feedRef_of_validFrame hf]

/-- A byte that leaves the buffer settled is appended, and nothing is emitted. -/
theorem exec_feedb_of_settled {b : Byte} (hr : s.rstDone = true) (h : bufferSettled (s.buf ++ [b]) = true) :
    exec (.feedb b) s = .next (s.setBuf (s.buf ++ [b])) := by
  rw [exec_feedb hr, feedRef_of_settled h, State.receive_nil]

/-! ## The statements -/

/-- Settles O1: RST sets the two fields, on every state. -/
theorem rstEmptiesBuffer : Obligations.RstEmptiesBuffer :=
  fun _ => ⟨rfl, rfl⟩

/-- Settles O3: FEEDB is the loop run on the buffer and the byte, which together hold at most one frame. -/
theorem feedbIsReferenceFeed : Obligations.FeedbIsReferenceFeed :=
  fun _ b hr => ⟨exec_feedb hr b, fun h => feedRef_byte_frames_le_one h b⟩

/-- Settles O4: FEED folds FEEDB, and from a settled buffer the fold is `feed_ref`. -/
theorem feedIsReferenceFeed : Obligations.FeedIsReferenceFeed := by
  intro s hr
  refine ⟨exec_feed hr [], fun b bs => ⟨feedByte s b, (afterReset_next_iff ..).2 ⟨hr, rfl⟩, ?_⟩,
    exec_feed_of_settled hr⟩
  have hr1 : (feedByte s b).rstDone = true := by rw [feedByte_eq_receive, State.receive_rstDone, hr]
  rw [exec_feed hr, exec_feed hr1, feedBytes_cons]

/-- Settles O5: the fold of FEEDB over a concatenation, and `feed_ref` of a concatenation. -/
theorem chunkingNeverMatters : Obligations.ChunkingNeverMatters := by
  refine ⟨fun s xs ys hr => ⟨feedBytes s xs, exec_feed hr xs, ?_⟩, feedRef_append⟩
  obtain ⟨k, hk⟩ := feedBytes_eq_receive_loop s xs
  have hr1 : (feedBytes s xs).rstDone = true := by rw [hk, State.receive_rstDone, hr]
  rw [exec_feed hr, exec_feed hr1, feedBytes_append]

/-- Settles O6: each row by what `feed_ref` does with the appended buffer, and what the head test says of it. -/
theorem feedbTransitionTable : Obligations.FeedbTransitionTable := by
  intro s b hr
  refine ⟨fun hb => ⟨?empty, decodeHead_one b⟩, fun a hb hm => ?marker, fun a hb hm => ⟨?hunt, ?drop, decodeHead_one b⟩,
    fun p hb hp => ⟨?collect, ?wait⟩, fun p hb hp => ⟨?complete, ?emit, rfl⟩⟩
  case empty => rw [exec_feedb_of_settled hr (by rw [hb]; rfl), hb]; rfl
  case marker =>
    obtain ⟨rfl, rfl⟩ := hm
    rw [exec_feedb_of_settled hr (by rw [hb]; rfl), hb]
    exact ⟨rfl, decodeHead_cons 0xFF 0xFE []⟩
  case hunt =>
    have href : feedRef [a] [b] = ([b], []) := settle_of_not_marker hm
    rw [exec_feedb hr, hb, href, State.receive_nil]; rfl
  case drop => rw [decodeHead_cons, if_neg hm]
  case collect =>
    have hset : bufferSettled (s.buf ++ [b]) = true := by rw [hb]; exact bufferSettled_marker (by simp; omega)
    rw [exec_feedb_of_settled hr hset, hb]; rfl
  case wait => rw [decodeHead_cons]; simp; omega
  case complete =>
    have hf : validFrame (s.buf ++ [b]) = true := by rw [hb]; exact validFrame_iff.2 ⟨p ++ [b], rfl, by simp [hp]⟩
    rw [exec_feedb hr, feedRef_of_validFrame hf, hb]; rfl
  case emit => rw [decodeHead_cons]; simp [hp]

/-- Settles O7: FEED runs the loop of `feed_ref`, whose frames are valid and lie in the stream. -/
theorem emittedFramesStartWithMarkers : Obligations.EmittedFramesStartWithMarkers := by
  intro s bs hr
  obtain ⟨k, hk⟩ := feedBytes_eq_receive_loop s bs
  refine ⟨_, _, (exec_feed hr bs).trans (congrArg _ hk), rfl, fun f hf => ?_⟩
  obtain ⟨p, hp, -⟩ := validFrame_iff.1 (feedRefLoop_frames _ _ f hf)
  refine ⟨validFrame_length (feedRefLoop_frames _ _ f hf), ?_, feedRefLoop_frames_infix _ _ f hf⟩
  rw [hp]; rfl

/-- Settles O8: FEED runs the loop of `feed_ref`, which takes each frame from the front and drops the other bytes. -/
theorem bytesAreConserved : Obligations.BytesAreConserved := by
  intro s bs hr
  obtain ⟨k, hk⟩ := feedBytes_eq_receive_loop s bs
  exact ⟨_, _, (exec_feed hr bs).trans (congrArg _ hk), rfl, feedRefLoop_sublist _ _,
    feedRefLoop_flatten_length _ _⟩

/-- Settles O10: the loop drops the garbage byte by byte and then finds the frame. -/
theorem garbageIsDroppedBeforeFrame : Obligations.GarbageIsDroppedBeforeFrame := by
  intro s g f hr hb hg hf
  have href : feedRef s.buf (g ++ f) = ([], [f]) := by rw [hb]; exact settle_garbage_append hg hf
  rw [exec_feed_of_settled hr (by rw [hb]; rfl), href]
  rfl

/-- Settles O11: the first part is a settled buffer, and the second completes the frame. -/
theorem splitFrameIsEmittedOnce : Obligations.SplitFrameIsEmittedOnce := by
  intro s xs ys hr hb hf hys
  have hxs := bufferSettled_of_validFrame_append hf hys
  have href : feedRef s.buf xs = (xs, []) := by rw [hb]; exact feedRef_of_settled hxs
  refine ⟨?_, exec_feed_of_validFrame hr hxs hf⟩
  rw [exec_feed_of_settled hr (by rw [hb]; rfl), href, State.receive_nil]
  rfl

/-- Settles O12: the frame alone is emitted from any state with an empty buffer, so also from the one it leaves. -/
theorem sameFrameTwiceDecodesTwice : Obligations.SameFrameTwiceDecodesTwice := by
  intro s f hr hb hf
  have once : ∀ t : State, t.rstDone = true → t.buf = [] → exec (.feed f) t = .next (t.receive [] [f]) := by
    intro t ht htb
    have h := exec_feed_of_validFrame (bs := f) ht (by rw [htb]; rfl) (by rw [htb]; exact hf)
    rwa [htb] at h
  refine ⟨decodeFrame f, once s hr hb, (once (s.receive [] [f]) hr rfl).trans ?_⟩
  rw [State.receive_receive]
  rfl

end Sys2Proof.Machine
end

-- The micro-steps.
section
/-! SUPPORT. A micro-step issued by itself (41_framer.md R122, R123; log 9): `microStepOf` names the one a phase selects,
and the buffer selects that of its own phase. -/

namespace Sys2Proof.Machine

/-- The micro-step of a phase (41_framer.md R122). -/
def microStepOf : Phase → Instr
  | .idle => .fIdle
  | .hunt => .fDrop
  | .wait => .fWait
  | .ready => .fEmit

theorem decodeHead_eq_microStepOf (b : List Byte) : decodeHead b = microStepOf (phase b) := by
  rw [decodeHead]
  cases phase b <;> rfl

theorem microStepOf_injective : Function.Injective microStepOf := by
  intro p q h
  cases p <;> cases q <;> cases h <;> rfl

/-- The state after the micro-step of a phase (41_framer.md R124 to R127). -/
def afterMicroStep (s : State) : Phase → State
  | .idle => s
  | .hunt => dropFront s
  | .wait => s
  | .ready => emitFront s

theorem exec_microStepOf (p : Phase) (s : State) : exec (microStepOf p) s = microStep p (afterMicroStep s p) s := by
  cases p <;> rfl

variable {s : State} {p : Phase}

theorem exec_microStepOf_selected (hr : s.rstDone = true) (hp : phase s.buf = p) :
    exec (microStepOf p) s = .next (afterMicroStep s p) := by
  rw [exec_microStepOf]
  exact (microStep_next_iff ..).2 ⟨hr, hp, rfl⟩

theorem exec_microStepOf_not_selected (hr : s.rstDone = true) (hp : phase s.buf ≠ p) :
    exec (microStepOf p) s = .refused .notSelected := by
  rw [exec_microStepOf]
  simp [microStep, hr, hp]

theorem completes_microStepOf_iff (hr : s.rstDone = true) : Completes (microStepOf p) s ↔ phase s.buf = p := by
  constructor
  · rintro ⟨s', h⟩
    rw [exec_microStepOf] at h
    exact ((microStep_next_iff ..).1 h).2.1
  · exact fun hp => ⟨_, exec_microStepOf_selected hr hp⟩

theorem exists_microStepOf {i : Instr} (hi : i ∈ [Instr.fIdle, .fDrop, .fWait, .fEmit]) : ∃ p, i = microStepOf p := by
  simp only [List.mem_cons, List.not_mem_nil, or_false] at hi
  obtain rfl | rfl | rfl | rfl := hi
  · exact ⟨.idle, rfl⟩
  · exact ⟨.hunt, rfl⟩
  · exact ⟨.wait, rfl⟩
  · exact ⟨.ready, rfl⟩

/-- Settles O14: the phases have different micro-steps, and the buffer has one phase. -/
theorem exactlyOneMicroStepSelected : Obligations.ExactlyOneMicroStepSelected := by
  intro s i hr hi
  obtain ⟨p, rfl⟩ := exists_microStepOf hi
  rw [Ne, decodeHead_eq_microStepOf, microStepOf_injective.eq_iff, completes_microStepOf_iff hr]
  exact ⟨eq_comm, fun hp => exec_microStepOf_not_selected hr (Ne.symm hp)⟩

theorem phase_of_length_lt_two {b : List Byte} (h : b.length < 2) : phase b = .idle := by
  match b, h with
  | [], _ => rfl
  | [_], _ => rfl

/-- Settles O13: each micro-step on a buffer of the shape that its phase has. -/
theorem microStepEffects : Obligations.MicroStepEffects := by
  intro s hr
  refine ⟨fun hb => ?idle, fun a b rest hb hm => ?drop, fun p hb hp => ?wait, fun p rest hb hp => ?emit⟩
  case idle => exact exec_microStepOf_selected hr (phase_of_length_lt_two hb)
  case drop =>
    have hphase : phase s.buf = .hunt := by rw [hb, phase_cons, if_neg hm]
    refine (exec_microStepOf_selected hr hphase).trans ?_
    rw [afterMicroStep, dropFront, hb]
    rfl
  case wait =>
    have hphase : phase s.buf = .wait := by rw [hb, phase_cons]; simp [hp]
    exact exec_microStepOf_selected hr hphase
  case emit =>
    have hphase : phase s.buf = .ready := by rw [hb, phase_cons]; simp; omega
    have htake : memRead s.buf 0 Params.rxLen = 0xFF :: 0xFE :: p := by
      simp [hb, memRead, List.take_left' hp]
    have hdrop : s.buf.drop Params.rxLen = rest := by
      simp [hb, List.drop_left' hp]
    refine (exec_microStepOf_selected hr hphase).trans ?_
    rw [afterMicroStep, emitFront_eq_receive, htake, hdrop]
    rfl

end Sys2Proof.Machine
end

-- The TelemetryDecoder.
section
/-! SUPPORT. The extractions and DECODE (42_telemetry_decoder.md): the length of the frame alone decides whether one
completes, what a field class reads is said on numbers, and the fields of a frame determine its triple. -/

namespace Sys2Proof.Machine

variable {f g : List Byte}

/-! ## Whether an extraction completes (R151) -/

theorem extract_of_length (h : f.length = Params.rxLen) (v : Value) (s : State) :
    extract f v s = .next (s.emitValue v) := (extract_next_iff f v s _).2 ⟨h, rfl⟩

theorem extract_of_length_ne (h : f.length ≠ Params.rxLen) (v : Value) (s : State) :
    extract f v s = .refused .frameLength := if_neg h

theorem exec_decode_of_length (h : f.length = Params.rxLen) (s : State) :
    exec (.decode f) s = .next (s.emitReadings (decodeFrame f)) := if_pos h

theorem exec_decode_of_length_ne (h : f.length ≠ Params.rxLen) (s : State) :
    exec (.decode f) s = .refused .frameLength := if_neg h

/-- Settles O34: every extraction has the one guard of `extract`, and DECODE has the same. -/
theorem wrongFrameLengthIsRefused : Obligations.WrongFrameLengthIsRefused := by
  intro s f hf i hi
  obtain rfl | hx := List.mem_cons.1 hi
  · exact exec_decode_of_length_ne hf s
  · fin_cases hx <;> exact extract_of_length_ne hf _ s

/-- Settles O27: the triple is `decodeFrame f`, whose fields are the extractions' values by definition. -/
theorem decodeAssemblesTheExtractions : Obligations.DecodeAssemblesTheExtractions := by
  intro s f hf
  have hx : ∀ v, extract f v s = .next (s.emitValue v) := fun v => extract_of_length hf v s
  exact ⟨decodeFrame f, exec_decode_of_length hf s, hx _, hx _, hx _, hx _, hx _, hx _, hx _, hx _, hx _, hx _, hx _,
    hx _, hx _, hx _, hx _, hx _, hx _, hx _, hx _, hx _⟩

/-! ## 16-bit fields (R153 to R159, R162 to R164, R166, R171) -/

theorem u16At_toNat (f : List Byte) (off : Nat) :
    (u16At f { off := off, width := 2 }).toNat = (byteAt f off).toNat + 256 * (byteAt f (off + 1)).toNat := by
  rw [u16At_eq, u16Unpack_toNat]

/-- The signed field is the unsigned one, less 65536 from 32768 on. -/
theorem i16At_of_toNat {off n : Nat} (hn : n = (byteAt f off).toNat + 256 * (byteAt f (off + 1)).toNat) :
    i16At f { off := off, width := 2 } = if n < 32768 then (n : Int) else n - 65536 := by
  rw [i16At_eq, i16Unpack, BitVec.toInt_eq_toNat_cond, u16Unpack_toNat, ← hn]
  split <;> split <;> omega

/-- Settles O28: each of the eight is the 16-bit field at its offset. -/
theorem unsignedFieldsAreLittleEndian : Obligations.UnsignedFieldsAreLittleEndian := by
  intro s f hf p hp
  have hexec : exec p.1 s = extract f (.u16 (u16At f { off := p.2, width := 2 })) s := by fin_cases hp <;> rfl
  exact ⟨_, hexec.trans (extract_of_length hf _ s), u16At_toNat f p.2⟩

/-- Settles O29: each of the four is the 16-bit field at its offset and its product with the scale. -/
theorem scaledFieldsAreExact : Obligations.ScaledFieldsAreExact := by
  intro s f hf
  have hx : ∀ v, extract f v s = .next (s.emitValue v) := fun v => extract_of_length hf v s
  refine ⟨⟨_, u16At_toNat f 8, ?ch2o⟩, ⟨_, u16At_toNat f 10, ?tvoc⟩, ⟨_, u16At_toNat f 22, hx _⟩,
    ⟨_, i16At_of_toNat rfl, hx _⟩⟩
  case ch2o => rw [mul_div_assoc]; exact hx _
  case tvoc => rw [mul_div_assoc]; exact hx _

/-! ## Fields of two parts (R160, R161, R165, R167 to R170) and the mode (R172) -/

/-- The value an extraction delivers of a high/low field or of the speed. -/
def pairValue (x : Byte × Byte × Q) : Value := .pair x.1 x.2.1 x.2.2

/-- The value an extraction delivers of a coordinate. -/
def coordValue (x : Int × BitVec 32 × XReal) : Value := .coord x.1 x.2.1 x.2.2

/-- Settles O30: each of the three is the high/low field at its offset. -/
theorem highLowFields : Obligations.HighLowFields := by
  intro s f hf p hp
  have hexec : exec p.1 s = extract f (pairValue (hlAt f { off := p.2, width := 1, frac := 1 })) s := by
    fin_cases hp <;> rfl
  rw [hexec, hlAt_eq]
  exact extract_of_length hf _ s

/-- Settles O31: both are the coordinate field at their offset, whose value is defined by `SF.UNPACK`. -/
theorem coordinateFields : Obligations.CoordinateFields := by
  intro s f hf p hp
  have hexec : exec p.1 s = extract f (coordValue (sfAt f { off := p.2, width := 1, frac := 4 })) s := by
    fin_cases hp <;> rfl
  rw [hexec, sfAt_eq]
  exact ⟨_, _, _, extract_of_length hf _ s, byte_toInt _, f32Pattern_toNat _ _ _ _, rfl⟩

theorem sbUnpack_of_lt {i : Byte} (h : i.toNat < 128) (b : Byte) : sbUnpack i b = i.toNat + b.toNat / 100 := by
  rw [sbUnpack, byte_toInt, if_pos h, if_neg (by omega), Int.cast_natCast]

theorem sbUnpack_of_le {i : Byte} (h : 128 ≤ i.toNat) (b : Byte) :
    sbUnpack i b = (i.toNat - 256 : Q) - b.toNat / 100 := by
  have := i.isLt
  rw [sbUnpack, byte_toInt, if_neg (Nat.not_lt.2 h), if_pos (by omega)]
  push_cast
  rfl

theorem exec_xHdg_of_length (h : f.length = Params.rxLen) (s : State) :
    exec (.xHdg f) s = .next (s.emitValue
      (.signedPair (byteAt f 42).toInt (byteAt f 43) (sbUnpack (byteAt f 42) (byteAt f 43)))) := by
  have hb : xHdg f = _ := sbAt_eq f 42
  rw [exec, execXHdg, hb]
  exact extract_of_length h _ s

/-- Settles O32: the heading's integer byte is its number, less 256 from 128 on. -/
theorem headingSpeedModeFields : Obligations.HeadingSpeedModeFields := by
  intro s f hf
  refine ⟨fun h => ?pos, fun h => ?neg, ?spd, ?mode⟩
  case pos => rw [exec_xHdg_of_length hf, sbUnpack_of_lt h, byte_toInt, if_pos h]; rfl
  case neg => rw [exec_xHdg_of_length hf, sbUnpack_of_le h, byte_toInt, if_neg (Nat.not_lt.2 h)]; rfl
  case spd =>
    have hexec : exec (.xSpd f) s = extract f (pairValue (ubAt f Params.speed)) s := rfl
    rw [hexec, ubAt_eq]
    exact extract_of_length hf _ s
  case mode => rw [← u8At_eq]; exact extract_of_length hf _ s

/-! ## What DECODE reads (R174) -/

/-- A read depends on the bytes in its range only. -/
theorem memRead_byteAt_congr {off n : Nat} (h : ∀ k, off ≤ k → k < off + n → byteAt f k = byteAt g k) :
    byteAt (memRead f off n) = byteAt (memRead g off n) := by
  have hbehind : ∀ (a : List Byte) {k : Nat}, n ≤ k → byteAt (memRead a off n) k = 0 := fun _ _ hk =>
    List.getD_eq_default _ _ ((List.length_take_le n _).trans hk)
  funext k
  obtain hk | hk := Nat.lt_or_ge k n
  · rw [byteAt_memRead f off hk, byteAt_memRead g off hk]
    exact h _ (by omega) (by omega)
  · rw [hbehind f hk, hbehind g hk]

/-- The bytes of a field are the same in both frames. -/
def SameField (f g : List Byte) (d : Params.Field) : Prop := intByte f d = intByte g d ∧ fracByte f d = fracByte g d

theorem sameField_of_byteAt {d : Params.Field} (h : ∀ k, d.off ≤ k → k < d.stop → byteAt f k = byteAt g k) :
    SameField f g d :=
  ⟨memRead_byteAt_congr fun k h0 h1 => h k h0 (Nat.lt_add_right d.frac h1),
    memRead_byteAt_congr fun k h0 h1 => h k (le_of_add_le_left h0) h1⟩

/-- The rows of the receive field table lie in the offsets that R174 names. -/
theorem rxFields_within : ∀ d ∈ Params.rxFields, (2 ≤ d.off ∧ d.stop ≤ 30) ∨ (32 ≤ d.off ∧ d.stop ≤ 49) := by decide

section
variable (h : ∀ d ∈ Params.rxFields, SameField f g d)
include h

theorem sensorOf_congr : sensorOf f = sensorOf g := by
  have hint := fun d hd => (h d hd).1
  have hfrac := fun d hd => (h d hd).2
  simp (disch := decide) only [sensorOf, xCo2, xCh2o, xTvoc, xPm25, xPm10, xAirT, xAirH, xTurb, xPh, xTds, xWatT, xWlvl,
    u16At, i16At, hlAt, hint, hfrac]

theorem vesselOf_congr : vesselOf f = vesselOf g := by
  have hint := fun d hd => (h d hd).1
  have hfrac := fun d hd => (h d hd).2
  simp (disch := decide) only [vesselOf, xLat, xLon, xHdg, xSpd, sfAt, sbAt, ubAt, hint, hfrac]

theorem deviceOf_congr : deviceOf f = deviceOf g := by
  have hint := fun d hd => (h d hd).1
  simp (disch := decide) only [deviceOf, xM1, xM2, xBat, xMode, u16At, u8At, hint]

/-- The fields of the receive field table determine the triple (R150, R173). -/
theorem decodeFrame_congr : decodeFrame f = decodeFrame g := by
  rw [decodeFrame, decodeFrame, sensorOf_congr h, vesselOf_congr h, deviceOf_congr h]

end

/-- Settles O33: every field lies inside the offsets on which the two frames agree. -/
theorem decodeReadsOnlyItsFields : Obligations.DecodeReadsOnlyItsFields := by
  intro s f g hf hg hk
  have hfields : ∀ d ∈ Params.rxFields, SameField f g d := fun d hd =>
    have := rxFields_within d hd
    sameField_of_byteAt fun k h0 h1 => hk k (by omega)
  have hdecode := exec_decode_of_length hf s
  rw [hdecode, exec_decode_of_length hg, decodeFrame_congr hfields]
  exact ⟨⟨_, hdecode⟩, rfl⟩

end Sys2Proof.Machine
end

-- ENCODE.
section
/-! SUPPORT. ENCODE delivers the first failing check, or the frame of the waypoints selected (43_command_encoder.md R190
to R199). Its one result is `encodeResult`, a function of the inputs; what follows says what it is, case by case. -/

namespace Sys2Proof.Machine

/-- Settles O41: the result is `encodeResult`, which reads no state. -/
theorem encodeIsStateless : Obligations.EncodeIsStateless :=
  fun c => ⟨encodeResult c, execEncode_eq c⟩

/-! ## The errors (43_command_encoder.md R192 to R196) -/

theorem exec_encode_of_error {c : EncCmd} {k : EncErr} (h : firstError c = some k) (s : State) :
    exec (.encode c) s = .next (s.emitResult (.err k)) := by
  rw [← encodeResult_of_error h]
  exact execEncode_eq c s

theorem usable_iff (p : PointIn) : usable p = true ↔
    p.valid = true ∧ -90 ≤ p.lat ∧ p.lat ≤ 90 ∧ -180 ≤ p.lon ∧ p.lon ≤ 180 := by
  rw [usable, Bool.and_eq_true_iff, inRange, decide_eq_true_iff]

section
variable {c : EncCmd}

theorem firstError_of_home_unusable (h : usable c.home ≠ true) : firstError c = some .homeInvalid := by
  simp [firstError, h]

theorem firstError_of_timestamp_invalid (hhome : usable c.home = true) (h : c.ts.valid = false) :
    firstError c = some .timestampInvalid := by
  simp [firstError, hhome, h]

theorem firstError_of_mode_three (hhome : usable c.home = true) (hts : c.ts.valid = true) (h : c.mode = 3) :
    firstError c = some .badMode := by
  simp [firstError, hhome, hts, h]

end

/-- Settles O35: each clause makes its check the first that fails. -/
theorem encodeErrorsInOrder : Obligations.EncodeErrorsInOrder := by
  intro s c
  simp only [← usable_iff]
  exact ⟨fun hhome => exec_encode_of_error (firstError_of_home_unusable hhome) s,
    fun hhome hts => exec_encode_of_error (firstError_of_timestamp_invalid hhome hts) s,
    fun hhome hts hmode => exec_encode_of_error (firstError_of_mode_three hhome hts hmode) s⟩

/-! ## The frame (43_command_encoder.md R190, R197 to R199) -/

/-- The positions, counted from 1, of the entries examined and not accepted (R198, R199). -/
theorem select_snd (wps : List PointIn) : (select wps).2 =
    ((wps.take 50).zipIdx 1).filterMap fun x => if usable x.1 then none else some x.2 := by
  rw [select, selectFrom_eq]

/-- Settles O37: `sendFrame` of the accepted waypoints, its parts written out. -/
theorem encodeBuildsTheFrame : Obligations.EncodeBuildsTheFrame := by
  intro s c hhome hts hmode
  have hexec := exec_encode_of_no_error ((firstError_none_iff c).2 ⟨hhome, hts, hmode⟩) s
  rw [encodeOk_eq, select_fst, select_snd] at hexec
  simp only [sendFrame, pointsFront, pointBytes, controlBack, ctrlBytes, ← List.append_assoc] at hexec
  exact hexec

/-- The selection looks at the first 50 entries alone (R199). -/
theorem select_take (wps : List PointIn) : select (wps.take 50) = select wps := by
  rw [select, List.take_take]
  rfl

theorem select_of_all_usable {wps : List PointIn} (h : ∀ w ∈ wps.take 50, usable w = true) :
    select wps = (wps.take 50, []) := by
  refine Prod.ext ((select_fst wps).trans (List.filter_eq_self.2 h)) ?_
  rw [select_snd, List.filterMap_eq_nil_iff]
  exact fun x hx => if_pos (h _ (List.fst_mem_of_mem_zipIdx hx))

theorem sendFrame_with_wps (c : EncCmd) (wps acc : List PointIn) :
    sendFrame { c with wps := wps } acc = sendFrame c acc := rfl

/-- ENCODE of the same inputs with other waypoints: the checks do not read them, the frame only their selection. -/
theorem exec_encode_with_wps {c : EncCmd} (h : firstError c = none) (wps : List PointIn) (s : State) :
    exec (.encode { c with wps := wps }) s = .next (s.emitResult
      (.ok (sendFrame c (select wps).1) (select wps).1.length (select wps).2 (wps.length - 50))) := by
  have herr : firstError { c with wps := wps } = none := h
  rw [exec_encode_of_no_error herr, encodeOk_eq, sendFrame_with_wps]

/-- Settles O39: the first 50 entries have the selection of the whole list. -/
theorem waypointCap : Obligations.WaypointCap := by
  intro s c hhome hts hmode hlen
  have herr := (firstError_none_iff c).2 ⟨hhome, hts, hmode⟩
  have htake : (c.wps.take 50).length = 50 := List.length_take_of_le hlen
  have hcut := exec_encode_with_wps herr (c.wps.take 50) s
  rw [select_take, htake, Nat.sub_self] at hcut
  refine ⟨_, _, _, exec_encode_with_wps herr c.wps s, hcut, fun hall => ?_⟩
  rw [sendFrame_length, select_of_all_usable hall, htake]
  exact ⟨rfl, rfl, rfl⟩

/-! ## The motor fields (43_command_encoder.md R206) -/

/-- The two bytes of a number of 16 bits read back as that number (R92, R93). -/
theorem u16Unpack_digits_toNat {v : Int} (h0 : 0 ≤ v) (h1 : v ≤ 65535) :
    ((u16Unpack (BitVec.ofInt 8 v) (BitVec.ofInt 8 (v / 256))).toNat : Int) = v := by
  have hlow := ofInt_byte_toNat v
  have hhigh := ofInt_byte_toNat (v / 256)
  rw [u16Unpack_toNat]
  omega

theorem u16Unpack_of_memRead {t : List Byte} {off : Nat} {v : Int} (h : memRead t off 2 = u16Pack v) :
    u16Unpack (byteAt t off) (byteAt t (off + 1)) = u16Unpack (BitVec.ofInt 8 v) (BitVec.ofInt 8 (v / 256)) := by
  have h0 : byteAt (memRead t off 2) 0 = byteAt t off := byteAt_memRead t off (by decide)
  have h1 : byteAt (memRead t off 2) 1 = byteAt t (off + 1) := byteAt_memRead t off (by decide)
  rw [← h0, ← h1, h]
  rfl

/-- What stands where a clamped motor was packed: a number in the clamp's bounds, the request if that was inside. -/
theorem motorField_clamped {t : List Byte} {off : Nat} {m : BitVec 16}
    (h : memRead t off 2 = u16Pack (clampMotor m.toNat)) :
    let w := u16Unpack (byteAt t off) (byteAt t (off + 1))
    675 ≤ w.toNat ∧ w.toNat ≤ 1353 ∧ (675 ≤ m.toNat → m.toNat ≤ 1353 → w = m) := by
  obtain ⟨hmin, hmax⟩ := clampMotor_mem m.toNat
  have hw : ((u16Unpack (byteAt t off) (byteAt t (off + 1))).toNat : Int) = clampMotor m.toNat := by
    rw [u16Unpack_of_memRead h, u16Unpack_digits_toNat (by omega) (by omega)]
  refine ⟨by omega, by omega, fun h0 h1 => BitVec.eq_of_toNat_eq ?_⟩
  rw [clampMotor_eq, if_neg (by omega), if_neg (by omega)] at hw
  exact_mod_cast hw

/-- A result delivered behind those before it is determined by the next state. -/
theorem emitResult_injective {s : State} {r r' : EncodeResult}
    (h : (.next (s.emitResult r) : Result) = .next (s.emitResult r')) : r = r' := by
  simpa [State.emitResult] using h

/-- ENCODE delivers `Ok` for inputs without a failing check only. -/
theorem firstError_none_of_ok {c : EncCmd} {t : List Byte} {n : Nat} {rej : List Nat} {tr : Nat}
    (h : encodeResult c = .ok t n rej tr) : firstError c = none := by
  cases herr : firstError c with
  | none => rfl
  | some k => rw [encodeResult_of_error herr] at h; cases h

/-- Settles O40: the frame is that of `sendFrameMap`, where the two fields hold the clamped motors. -/
theorem sentMotorsAreClamped : Obligations.SentMotorsAreClamped := by
  intro s c t n rej tr h
  have hok : encodeResult c = .ok t n rej tr := emitResult_injective ((execEncode_eq c s).symm.trans h)
  obtain ⟨hhome, hts, hmode⟩ := (firstError_none_iff c).1 (firstError_none_of_ok hok)
  obtain ⟨_, _, _, _, hexec, -, -, -, -, -, -, -, -, -, -, -, -, hm1, hm2, -⟩ := sendFrameMap s c hhome hts hmode
  cases emitResult_injective (h.symm.trans hexec)
  have hclamp1 := motorField_clamped hm1
  have hclamp2 := motorField_clamped hm2
  rw [Nat.add_right_comm] at hclamp1 hclamp2
  exact ⟨hclamp1, hclamp2⟩

/-! ## The source's scenario (43_command_encoder.md R209, 95_test_vectors.md T30) -/

/-- The inputs of R209, the timestamp taken as UTC (decision D38). -/
def sourceScenario : EncCmd where
  home := { valid := true, lat := 3123 / 100, lon := 12147 / 100 }
  ts := { valid := true, secs := 1704067200 }
  wps := []
  pumpAuto := false
  pumpActive := false
  mode := 0
  motor1 := 1013
  motor2 := 1013

/-- The 41 bytes of T30, evaluated: no check fails, and there is no waypoint. -/
theorem encodeResult_sourceScenario : encodeResult sourceScenario = .ok
    [0xFF, 0xFE, 0x80, 0x00, 0x92, 0x65, 0x00, 0x00, 0x00, 0x00, 0x79, 0xD7, 0xA3, 0xF0, 0x3E,
      0x1F, 0x1F, 0x85, 0x6B, 0x3E, 0x00, 0x00, 0x00, 0xF5, 0x03, 0xF5, 0x03,
      0, 0, 0, 0, 0, 0, 0, 0, 0, 0, 0, 0, 0, 0] 0 [] 0 := by
  decide +kernel

/-- Settles O43: the result of ENCODE is `encodeResult` from every state. -/
theorem sourceScenarioFrame : Obligations.SourceScenarioFrame := by
  intro s
  rw [← encodeResult_sourceScenario]
  exact execEncode_eq sourceScenario s

end Sys2Proof.Machine
end

-- The segment writers.
section
/-! SUPPORT. A segment writer on a frame cut at its segment (43_command_encoder.md R200 to R204): it is one write, of as
many bytes as stand there. -/

namespace Sys2Proof.Machine

/-- A writer whose work is the write of `new` over `old` delivers the frame with `new` in its place. -/
theorem writeSegment_middle {a old z new t' : List Byte} {off n : Nat} (s : State) (ha : a.length = off)
    (hold : old.length = n) (hnew : new.length = n) (ht' : t' = memWrite (a ++ old ++ z) off new) :
    writeSegment (a ++ old ++ z) off n t' s = .next (s.emitValue (.bytes (a ++ new ++ z))) := by
  subst ha
  rw [writeSegment_next_iff, ht', memWrite_middle a old z new (hold.trans hnew.symm)]
  exact ⟨by simp; omega, rfl⟩

/-- Settles O44: each writer is one write of its segment's bytes. -/
theorem segmentWritersReplaceTheirBytes : Obligations.SegmentWritersReplaceTheirBytes := by
  intro s a old z
  refine ⟨fun ha hold => ?hdr, fun secs ha hold => ?ts, fun p lat lon ha hold => ?point,
    fun c pa pv mode m1 m2 ha hold => ?ctrl, fun o ha hold => ?tail⟩
  case hdr =>
    exact writeSegment_middle s (List.length_eq_zero_iff.2 ha) hold rfl (writeHdr_eq _ (by simp; omega))
  case ts => exact writeSegment_middle s ha hold (i64Pack_length _) rfl
  case point => exact writeSegment_middle s ha hold rfl (writePoint_eq _ _ _ _ (by simp; omega))
  case ctrl =>
    have hexec := writeSegment_middle s ha hold (ctrlBytes_length pa pv (modeCode mode) m1 m2)
      (writeCtrl_eq (a ++ old ++ z) c pa pv (modeCode mode) m1 m2 (by simp; omega))
    cases mode <;> exact hexec
  case tail => exact writeSegment_middle s ha hold List.length_replicate rfl

end Sys2Proof.Machine
end

-- The step with no transaction pending, the completion of every operation, and the codes of ENCODE's results.
section
/-! SUPPORT. The codec never stops: an idle step leaves a settled state alone (60_exceptions.md R240), every
well-formed operation completes after an RST, and the errors of ENCODE are results with a code (R230). -/

namespace Sys2Proof.Machine

variable {s : State}

/-! ## With no transaction pending (R240) -/

/-- Before the first RST there is no micro-step to run (log 3). -/
theorem fetch_of_input_nil_before_rst (hin : s.input = []) (hr : s.rstDone = false) : fetch s = .idle := by
  simp [fetch, hin, hr]

theorem step_of_fetch_idle (h : fetch s = .idle) : step s = .next s := by
  simp [step, h]

/-- A settled buffer selects F.IDLE or F.WAIT, which write nothing (10_state.md R22). -/
theorem afterMicroStep_of_settled (h : bufferSettled s.buf = true) : afterMicroStep s (phase s.buf) = s := by
  obtain hp | hp := (settled_iff s.buf).1 h
  · rw [hp, afterMicroStep]
  · rw [hp, afterMicroStep]

/-- Settles O18: before the first RST a step finds nothing to do; after it, the micro-step of a settled buffer. -/
theorem idleStepChangesNothing : Obligations.IdleStepChangesNothing := by
  intro s hinv hin
  cases hr : s.rstDone with
  | false => exact step_of_fetch_idle (fetch_of_input_nil_before_rst hin hr)
  | true =>
    obtain ⟨-, -, -, hidle⟩ := stepRunsTheDecodedOperation s
    calc step s = exec (microStepOf (phase s.buf)) s := by rw [hidle hin hr, decodeHead_eq_microStepOf]
      _ = .next (afterMicroStep s (phase s.buf)) := exec_microStepOf_selected hr rfl
      _ = .next s := by rw [afterMicroStep_of_settled (hinv.settled hr)]

/-! ## Every well-formed operation completes -/

/-- The operations without a port need no RST: `wellFormed` is the guard of each (log 7, log 12). -/
theorem completes_of_isPortless {i : Instr} (hi : isPortless i = true) (hwf : i.wellFormed = true) (s : State) :
    Completes i s := by
  cases i
  case xM1 | xM2 | xCo2 | xCh2o | xTvoc | xPm25 | xPm10 | xAirT | xAirH | xTurb | xPh | xTds | xWatT | xWlvl | xLat
      | xLon | xHdg | xSpd | xBat | xMode =>
    exact ⟨_, extract_of_length (eq_of_beq hwf) _ s⟩
  case eHdr | eTs | ePoint | eCtrl | eTail =>
    exact ⟨_, (writeSegment_next_iff ..).2 ⟨of_decide_eq_true hwf, rfl⟩⟩
  case u8Unpack | u8Pack | u16Unpack | u16Pack | i16Unpack | i64Pack | hlUnpack | hlPack | f32Unpack | f32Pack
      | sfUnpack | sfPack | sbUnpack | ubUnpack | bool8Pack | clampMotor =>
    exact ⟨_, primitive_of_domain hwf _ s⟩
  all_goals cases hi

/-- Settles O20: the RX transactions need the RST alone, a micro-step also that the buffer selects it, DECODE a frame's
length and ENCODE nothing; the others are the operations without a port. -/
theorem wellFormedOperationsComplete : Obligations.WellFormedOperationsComplete := by
  intro i s hwf hr hsel
  have hmicro (hi : i ∈ [Instr.fIdle, .fDrop, .fWait, .fEmit]) : Completes i s :=
    (exactlyOneMicroStepSelected s i hr hi).1.2 (hsel hi)
  cases i
  case rst => exact exec_completes_of_rx hr (.inl rfl)
  case feedb b => exact exec_completes_of_rx hr (.inr (.inl ⟨b, rfl⟩))
  case feed bs => exact exec_completes_of_rx hr (.inr (.inr ⟨bs, rfl⟩))
  case fIdle | fDrop | fWait | fEmit => exact hmicro (by decide)
  case decode f => exact ⟨_, exec_decode_of_length (eq_of_beq hwf) s⟩
  case encode c => exact ⟨_, execEncode_eq c s⟩
  all_goals exact completes_of_isPortless rfl hwf s

/-! ## The codes of the results of ENCODE (R230) -/

theorem EncErr.code_bounds (k : EncErr) : 1 ≤ k.code ∧ k.code ≤ 3 := by
  cases k <;> decide

theorem EncErr.code_injective : Function.Injective EncErr.code := by
  intro k k' h
  cases k <;> cases k' <;> cases h <;> rfl

theorem EncodeResult.code_eq_zero_iff (r : EncodeResult) :
    r.code = 0 ↔ ∃ bytes n rej tr, r = .ok bytes n rej tr := by
  cases r with
  | ok bytes n rej tr => exact ⟨fun _ => ⟨bytes, n, rej, tr, rfl⟩, fun _ => rfl⟩
  | err k => simp [EncodeResult.code, Nat.ne_of_gt k.code_bounds.1]

/-- An error's code tells it from `Ok` and from the other errors. -/
theorem EncodeResult.code_eq_errCode_iff (r : EncodeResult) (k : EncErr) : r.code = k.code ↔ r = .err k := by
  cases r with
  | ok => simp [EncodeResult.code, Nat.ne_of_lt k.code_bounds.1]
  | err k' => rw [EncodeResult.code, EncErr.code_injective.eq_iff, EncodeResult.err.injEq]

theorem EncodeResult.code_le (r : EncodeResult) : r.code ≤ 3 := by
  cases r with
  | ok => exact Nat.zero_le 3
  | err k => exact k.code_bounds.2

/-- Settles O36: the one result is `encodeResult c`, and a code names one kind of result. -/
theorem encodeResultCodes : Obligations.EncodeResultCodes := fun s c =>
  ⟨encodeResult c, execEncode_eq c s, (encodeResult c).code_eq_zero_iff,
    (encodeResult c).code_eq_errCode_iff .homeInvalid, (encodeResult c).code_eq_errCode_iff .timestampInvalid,
    (encodeResult c).code_eq_errCode_iff .badMode, (encodeResult c).code_le⟩

end Sys2Proof.Machine
end

-- Before the first RST.
section
/-! SUPPORT. The guard of the first RST (70_reset_and_hazards.md R251, U1; log 4): without it FEEDB, FEED and every
micro-step are refused, whatever the buffer holds. -/

namespace Sys2Proof.Machine

variable {s : State}

theorem afterReset_before_rst (hr : s.rstDone = false) (t : State) : afterReset s t = .refused .rxBeforeReset := by
  simp [afterReset, hr]

/-- Also where the buffer selects another micro-step: the flag is tested before the phase. -/
theorem exec_microStepOf_before_rst (hr : s.rstDone = false) (p : Phase) :
    exec (microStepOf p) s = .refused .rxBeforeReset := by
  rw [exec_microStepOf]
  simp [microStep, hr]

/-- Settles O2: the feeds and the micro-steps test the flag first; ENCODE and DECODE have no such test. -/
theorem rxIsRefusedBeforeFirstRst : Obligations.RxIsRefusedBeforeFirstRst := by
  intro s hr
  refine ⟨fun b => afterReset_before_rst hr (feedByte s b), fun bs => afterReset_before_rst hr (feedBytes s bs),
    fun i hi => ?microStep, fun c => ⟨_, execEncode_eq c s⟩, fun f hf => ⟨_, exec_decode_of_length hf s⟩⟩
  case microStep =>
    obtain ⟨p, rfl⟩ := exists_microStepOf hi
    exact exec_microStepOf_before_rst hr p

end Sys2Proof.Machine
end
